-- ==== Sys2Proof/Word.lean ====
section
/-! DEFINITION. The words of EVM at the default widths of rule R7, and the constants those widths fix. -/

namespace Sys2Proof

/-- An operation word, `OP_W = 48` bits (R70). -/
abbrev OpWord := BitVec 48

/-- A bare frame, `FRAME_W = 40` bits (R72). -/
abbrev FrameWord := BitVec 40

/-- One byte of a serialised word or frame (R55, R89). -/
abbrev Byte := BitVec 8

/-- The `voice` field of an operation word, 4 bits (R70). -/
abbrev VoiceIdx := BitVec 4

/-- The frequency field, `FREQ_W = 16` bits; 0 is a pause (R21, R72). -/
abbrev Freq := BitVec 16

/-- A signed sample, `SAMPLE_W = 8` bits, two's complement (R7, R9). -/
abbrev Sample := BitVec 8

/-- `SMIN`, the least signed sample (R7). -/
def sampleMin : Int := -128

/-- `SMAX`, the greatest signed sample (R7). -/
def sampleMax : Int := 127

/-- `VOL_MAX`, the greatest legal volume (R7). -/
def volMax : Nat := 128

/-- `VOL_SH` with `VOL_MAX = 2^VOL_SH` (R7). -/
def volShift : Nat := 7

/-- `GAIN_SH` (R7). -/
def gainShift : Nat := 8

/-- `GAIN_ONE = 2^GAIN_SH`, full level (R7, R102). -/
def gainOne : Nat := 256

end Sys2Proof
end

