-- ==== Sys2Proof/Syntax.lean ====
section
/-! DEFINITION. OPSET-1 (R74): the four operations, one constructor per row of spec/opcode_table.json. -/

namespace Sys2Proof

/-- An operation with the operands its word carries (R73, R85). -/
inductive Instr where
  /-- LOAD (R75, R112): a voice index and the four fields of a frame, the duration as stored (minus 1). -/
  | load (voice : VoiceIdx) (freq : Freq) (vol durm1 rel : BitVec 8)
  /-- ENABLE (R76, R140). -/
  | enable (voice : VoiceIdx)
  /-- DISABLE (R77, R141). -/
  | disable (voice : VoiceIdx)
  /-- TICK (R78, R130). -/
  | tick
  deriving DecidableEq, Repr

end Sys2Proof
end

