-- ==== Sys2Proof/WellFormed.lean ====
section
/-! DEFINITION. The operand checks of R82. Every `Instr` can be encoded, because its fields have the widths of the
word; what can be wrong with one is a value the contract forbids (R161 V1, V2), and V1 depends on how many voices the
instance has. -/

namespace Sys2Proof

/-- The voice an operation addresses, if it addresses one (R54, R73). -/
def Instr.voice? : Instr → Option Nat
  | .load v _ _ _ _ => some v.toNat
  | .enable v => some v.toNat
  | .disable v => some v.toNat
  | .tick => none

/-- No contract violation in the operands on an instance with `nv` voices: `voice < NV` and `f_vol <= 128`
(R82, R161). -/
def Instr.wellFormed (nv : Nat) : Instr → Bool
  | .load v _ vol _ _ => decide (v.toNat < nv) && decide (vol.toNat ≤ volMax)
  | .enable v => decide (v.toNat < nv)
  | .disable v => decide (v.toNat < nv)
  | .tick => true

end Sys2Proof
end

