-- ==== Sys2Proof/Decode.lean ====
section
/-! DEFINITION. The decoder of R85, total on every word and on every list of bytes, and the encoder of R88 with the
little-endian byte forms of R55 and R89. -/

namespace Sys2Proof

/-- Why a word or a list of bytes is no operation. -/
inductive DecodeError where
  /-- A reserved operation code, 0x0 or 0x5 to 0xF (R81). -/
  | reservedOp (op : BitVec 4)
  /-- Fewer bytes than the six of a word (R89). DESIGN CHOICE, log 25: safe. -/
  | truncated (have_ : Nat)
  deriving DecidableEq, Repr

/-! ### The operation codes of R74 -/

def opLoad : BitVec 4 := 0x1#4
def opEnable : BitVec 4 := 0x2#4
def opDisable : BitVec 4 := 0x3#4
def opTick : BitVec 4 := 0x4#4

/-! ### The fields of a word (R70, R72) -/

/-- `word[47:44]`. -/
def opField (w : OpWord) : BitVec 4 := w.extractLsb' 44 4

/-- `word[43:40]`. -/
def voiceField (w : OpWord) : VoiceIdx := w.extractLsb' 40 4

/-- `word[39:24]`. -/
def freqField (w : OpWord) : Freq := w.extractLsb' 24 16

/-- `word[23:16]`. -/
def volField (w : OpWord) : BitVec 8 := w.extractLsb' 16 8

/-- `word[15:8]`. -/
def durm1Field (w : OpWord) : BitVec 8 := w.extractLsb' 8 8

/-- `word[7:0]`. -/
def relField (w : OpWord) : BitVec 8 := w.extractLsb' 0 8

/-- R85: `op` alone selects; the fields an operation does not use are ignored (R80). -/
def decodeWord (w : OpWord) : Except DecodeError Instr :=
  if opField w = opLoad then
    .ok (.load (voiceField w) (freqField w) (volField w) (durm1Field w) (relField w))
  else if opField w = opEnable then .ok (.enable (voiceField w))
  else if opField w = opDisable then .ok (.disable (voiceField w))
  else if opField w = opTick then .ok .tick
  else .error (.reservedOp (opField w))

/-- Six bytes as a word, byte 0 least significant (R55). -/
def wordOfBytes (b0 b1 b2 b3 b4 b5 : Byte) : OpWord :=
  b5 ++ (b4 ++ (b3 ++ (b2 ++ (b1 ++ b0))))

/-- One operation at the front of a list of bytes, and the bytes after it. -/
def decodeBytes : List Byte → Except DecodeError (Instr × List Byte)
  | b0 :: b1 :: b2 :: b3 :: b4 :: b5 :: rest =>
    match decodeWord (wordOfBytes b0 b1 b2 b3 b4 b5) with
    | .ok i => .ok (i, rest)
    | .error e => .error e
  | short => .error (.truncated short.length)

/-! ### The encoder (R70, R72, R88) -/

/-- The frame word of R72: frequency most significant, then volume, duration minus 1, release point. -/
def encodeFrame (freq : Freq) (vol durm1 rel : BitVec 8) : FrameWord :=
  freq ++ (vol ++ (durm1 ++ rel))

/-- The word of R70 made of its three fields. -/
def assembleWord (op : BitVec 4) (voice : VoiceIdx) (frame : FrameWord) : OpWord :=
  op ++ (voice ++ frame)

/-- The canonical word of an operation: zeros in every ignored field (R88). -/
def encode : Instr → OpWord
  | .load v freq vol durm1 rel => assembleWord opLoad v (encodeFrame freq vol durm1 rel)
  | .enable v => assembleWord opEnable v 0
  | .disable v => assembleWord opDisable v 0
  | .tick => assembleWord opTick 0 0

/-- The operation code of an operation (R74). -/
def Instr.opcode : Instr → BitVec 4
  | .load .. => opLoad
  | .enable _ => opEnable
  | .disable _ => opDisable
  | .tick => opTick

/-- Byte `k` of a word holds bits `8k+7..8k` (R55). -/
def byteOfWord (w : OpWord) (k : Nat) : Byte := w.extractLsb' (8 * k) 8

/-- The six bytes of a word, first to last (R89). -/
def bytesOfWord (w : OpWord) : List Byte :=
  [byteOfWord w 0, byteOfWord w 1, byteOfWord w 2, byteOfWord w 3, byteOfWord w 4, byteOfWord w 5]

/-- The five bytes of a bare frame, `rel, durm1, vol, freq_lo, freq_hi` (R89). -/
def bytesOfFrame (f : FrameWord) : List Byte :=
  [f.extractLsb' 0 8, f.extractLsb' 8 8, f.extractLsb' 16 8, f.extractLsb' 24 8, f.extractLsb' 32 8]

/-- A word given as a number of `nbits` bits numbered as spec/opcode_table.json numbers them, every bit from `nbits`
up zero. -/
def wordOfTable (nbits w : Nat) : OpWord := BitVec.ofNat 48 (w % 2 ^ nbits)

/-- What the decoder reads from a table word laid out in bytes as the hardware serialises it (R55). -/
def decodeTableWord (nbits w : Nat) : Option Instr :=
  match decodeBytes (bytesOfWord (wordOfTable nbits w)) with
  | .ok (i, _) => some i
  | .error _ => none

end Sys2Proof
end

