-- ==== Sys2Proof/Config.lean ====
section
/-! DEFINITION. The parameter record of R7, over any type of oscillator states, and the constants the machine leaves
open. `NV` is not in the record: it is the number of voice records a state holds (log 2). The widths are fixed at their
defaults (log 1). -/

namespace Sys2Proof

/-- The parameters of an instance (R7), fixed before reset and changed by no operation (R37, R193). Its type parameter
is `OscState`, any type (R26, R104). -/
structure Cfg (Osc : Type) where
  /-- `TIME_UNIT`, ticks per time unit. -/
  timeUnit : Nat
  /-- `ATTACK_UNITS`. -/
  attackUnits : Nat
  /-- `DECAY_UNITS`. -/
  decayUnits : Nat
  /-- `SUSTAIN_LEVEL`. -/
  sustainLevel : Nat
  /-- `ENV_GAIN(u, rel, dur)` (R102). -/
  envGain : Nat → Nat → Nat → Nat
  /-- `OSC_RESET` (R104). -/
  oscReset : Osc
  /-- `OscLoad(s, freq)` (R104). -/
  oscLoad : Osc → Freq → Osc
  /-- `OscStep(s)`: the next state and the raw sample (R104). -/
  oscStep : Osc → Osc × Sample

/-- The constraints of R7 and property (P1) of R102. An instance that breaks one is contract violation V4 (R161): a
statement about an arbitrary instance takes this as a hypothesis (R162). -/
structure Cfg.Valid {Osc : Type} (c : Cfg Osc) : Prop where
  timeUnit_pos : 1 ≤ c.timeUnit
  sustain_le : c.sustainLevel ≤ gainOne
  gain_le : ∀ u rel dur, c.envGain u rel dur ≤ gainOne

/-! ### The OPEN parameters of R7, free values: no proof can see what they are (log 3). -/

/-- `TIME_UNIT - 1`; adding 1 meets the constraint `TIME_UNIT >= 1`. -/
opaque Config.timeUnitPred : Nat

/-- `ATTACK_UNITS`. -/
opaque Config.attackUnits : Nat

/-- `DECAY_UNITS`. -/
opaque Config.decayUnits : Nat

/-- `SUSTAIN_LEVEL`, in `0..GAIN_ONE`. -/
opaque Config.sustainLevel : Fin 257

/-- Which numbers, beside the one state every type of states has, name an oscillator state. -/
opaque Config.namesOsc : Nat → Bool

/-- `OscState` of the machine (R26, R104): a nonempty type, and no proof can see how many states it has. The model
names the states by numbers, so that a machine state can be compared and written out. DESIGN CHOICE, log 5: safe. -/
abbrev OscState : Type := Option { n : Nat // Config.namesOsc n = true }

/-- `OSC_RESET`. -/
opaque Config.oscReset : OscState

/-- `OscLoad`. -/
opaque Config.oscLoad : OscState → Freq → OscState

/-- `OscStep`. -/
opaque Config.oscStep : OscState → OscState × Sample

end Sys2Proof
end

