-- ==== Sys2Proof/Machine/State.lean ====
section
/-! DEFINITION. The state of EVM (R20): NV voice records of eight registers, the three block-wide registers, and the
model's own view of the ports of R51. `OscState` is a type parameter (R26). -/

namespace Sys2Proof.Machine

/-- The envelope phase (R24). Codes 5, 6 and 7 are unreachable and have no constructor (UB7, log 17). -/
inductive Phase where
  | attack | decay | sustain | release | done
  deriving DecidableEq, Repr

/-- The eight registers of one voice (R21). -/
structure Voice (Osc : Type) where
  /-- Frequency of the loaded frame; 0 is a pause. -/
  freq : Freq
  /-- Volume of the loaded frame, legal 0..128. -/
  vol : BitVec 8
  /-- Duration of the loaded frame in time units, minus 1. -/
  durm1 : BitVec 8
  /-- Release point of the loaded frame, in time units from the load. -/
  rel : BitVec 8
  /-- Envelope phase. -/
  phase : Phase
  /-- Whole time units elapsed since the load, `DUR_W + 1` bits. -/
  eu : BitVec 9
  /-- Ticks elapsed inside the current time unit, kept below `2^ES_W` (log 6). -/
  es : Nat
  /-- The oscillator's own state, never inspected (R26). -/
  osc : Osc
  deriving DecidableEq, Repr

/-- One call on the oscillator capability port (R51, R104). -/
inductive OscCall where
  /-- `OscLoad` for a voice, with the frequency passed. -/
  | load (voice : Nat) (freq : Freq)
  /-- `OscStep` for a voice, with the raw sample returned. -/
  | step (voice : Nat) (raw : Sample)
  deriving DecidableEq, Repr

/-- What the last event did on the ports that carry no register (R51): the model's own record, read by no rule.
DESIGN CHOICE, log 10: safe. -/
structure Activity where
  /-- The strobe `sample_valid`: the last event was a TICK (R136). -/
  sampleValid : Bool
  /-- The calls of the last event on the capability port, in order (R131). -/
  oscCalls : List OscCall
  deriving DecidableEq, Repr

/-- What the host presents at one instant at which EVM is ready (R51, R166). -/
structure Requests where
  /-- The port `rst`. -/
  rst : Bool
  /-- `op_valid` with the word on `op_word`. -/
  op : Option OpWord
  /-- The port `tick_req`. -/
  tick : Bool
  deriving DecidableEq, Repr

/-- The whole state of an instance whose oscillator states are of the type `Osc` (R26). -/
structure State.Of (Osc : Type) where
  /-- The voice records 0, 1, ...; their number is `NV` (R20, log 2). -/
  voices : List (Voice Osc)
  /-- Bit `i` enables voice `i` (R32); the bits from `NV` up do not exist and stay 0 (log 20). -/
  mask : BitVec 16
  /-- Counts the TICKs whose sum was clamped (R33). -/
  clipcnt : BitVec 16
  /-- The sample the most recent TICK returned (R34). -/
  out : Sample
  /-- Port activity of the last event. -/
  activity : Activity
  /-- The host's instants not taken yet, the one on the ports first (log 7). -/
  requests : List Requests
  deriving DecidableEq, Repr

/-- The state of the machine behind the host's interface. -/
abbrev State : Type := State.Of OscState

/-- EVM raises no exception, trap, fault or error (R160, R163), so no reason to stop with a fault exists.
Safe: nothing is stopped that the hardware would run (log 15). -/
inductive Fault where
  deriving DecidableEq, Repr

/-- The closed list of reasons to refuse (R162), and the host's name for an instruction without a meaning. -/
inductive Refusal where
  /-- V1: LOAD, ENABLE or DISABLE with `voice >= NV` (R161). Undefined in hardware; safe, it errs toward unprovable. -/
  | voiceOutOfRange
  /-- V2: LOAD with `f_vol > 128` (R161). Undefined in hardware; safe. -/
  | volumeOutOfRange
  /-- V3: an operation word with a reserved code (R81, R161), raised when the word is taken. Safe. -/
  | reservedOp
  /-- An instruction of the table without a meaning: no arm of `exec` raises it. Safe. -/
  | notModelled (mnemonic : String)
  deriving DecidableEq, Repr

/-- A voice record after reset, with the capability's reset state (R190). -/
def Voice.atReset {Osc : Type} (osc : Osc) : Voice Osc where
  freq := 0
  vol := 0
  durm1 := 0
  rel := 0
  phase := .done
  eu := 0
  es := 0
  osc := osc

/-- No pulse and no call. -/
def Activity.quiet : Activity := { sampleValid := false, oscCalls := [] }

/-- An instance with `nv` voices right after reset (R190), no request yet. -/
def State.Of.afterReset {Osc : Type} (nv : Nat) (osc : Osc) : State.Of Osc where
  voices := List.replicate nv (Voice.atReset osc)
  mask := 0
  clipcnt := 0
  out := 0
  activity := Activity.quiet
  requests := []

/-- The machine right after reset: sixteen voices, the default of R7 (log 2). -/
def State.reset : State := State.Of.afterReset 16 Config.oscReset

end Sys2Proof.Machine
end

