-- ==== Sys2Proof/Machine/Ops.lean ====
section
/-! DEFINITION. The named operations every meaning is built from: reading and writing voice records and mask bits, the
reset event, and taking the next request off the ports. EVM has no memory (R53), no exception to take and none to
return from (R160, R167, R168): the reset event is the one event that is no operation. -/

namespace Sys2Proof.Machine

variable {Osc : Type}

/-- `NV`, the number of voice records (R20). -/
def State.Of.nv (s : State.Of Osc) : Nat := s.voices.length

/-- The record of voice `i`; an index from `NV` up names nothing (R54). -/
def State.Of.voice? (s : State.Of Osc) (i : Nat) : Option (Voice Osc) := s.voices[i]?

/-- Rewrite the record of voice `i` and no other (R21). -/
def State.Of.updateVoice (s : State.Of Osc) (i : Nat) (f : Voice Osc → Voice Osc) : State.Of Osc :=
  { s with voices := s.voices.modify i f }

/-- `mask[i]` (R10, R32). -/
def State.Of.enabled (s : State.Of Osc) (i : Nat) : Bool := s.mask.getLsbD i

/-- A mask with bit `i` set. -/
def maskSet (m : BitVec 16) (i : Nat) : BitVec 16 := m ||| (1#16 <<< i)

/-- A mask with bit `i` cleared. -/
def maskClear (m : BitVec 16) (i : Nat) : BitVec 16 := m &&& ~~~(1#16 <<< i)

/-- `mask[i] <- 1` (R32). -/
def State.Of.setMask (s : State.Of Osc) (i : Nat) : State.Of Osc := { s with mask := maskSet s.mask i }

/-- `mask[i] <- 0` (R32). -/
def State.Of.clearMask (s : State.Of Osc) (i : Nat) : State.Of Osc := { s with mask := maskClear s.mask i }

/-- Record what an event did on the ports without registers (R51). -/
def State.Of.withActivity (s : State.Of Osc) (a : Activity) : State.Of Osc := { s with activity := a }

/-- The requests left on the ports. -/
def State.Of.withRequests (s : State.Of Osc) (rs : List Requests) : State.Of Osc := { s with requests := rs }

/-- The reset event (R190, R193): every register at its reset value, `NV` and the instance unchanged. -/
def resetEvent (cfg : Cfg Osc) (s : State.Of Osc) : State.Of Osc :=
  { s with
    voices := s.voices.map fun _ => Voice.atReset cfg.oscReset
    mask := 0
    clipcnt := 0
    out := 0
    activity := Activity.quiet }

/-- The canonical TICK word, which `tick_req` stands for (R79). -/
def tickWord : OpWord := encode .tick

/-- What EVM does next. -/
inductive Event where
  /-- Nothing is requested. -/
  | idle
  /-- The reset event. -/
  | reset
  /-- One operation word, issued. -/
  | op (w : OpWord)
  deriving DecidableEq, Repr

/-- Take one request off the ports (R166): first `rst`, which discards what else is pending; then the operation word;
then `tick_req`. A request not taken stays pending and is taken before the host's next instant (log 8). -/
def nextEvent : List Requests → Event × List Requests
  | [] => (.idle, [])
  | r :: rest =>
    if r.rst then (.reset, rest)
    else match r.op with
      | some w => (.op w, if r.tick then { r with op := none } :: rest else rest)
      | none => if r.tick then (.op tickWord, rest) else (.idle, rest)

/-- A host instant that presents one operation word and nothing else. -/
def presentWord (w : OpWord) : Requests := { rst := false, op := some w, tick := false }

/-- A host instant that asserts `rst` and nothing else. -/
def presentReset : Requests := { rst := true, op := none, tick := false }

end Sys2Proof.Machine
end

