-- ==== Sys2Proof/Machine/Operands.lean ====
section
/-! DEFINITION. How operands are read (R73, R23), the checks of R82, and the integer arithmetic of R10 and R105. -/

namespace Sys2Proof.Machine

variable {Osc : Type}

/-- The duration in time units of a stored duration field, `1..256` (R73). -/
def durOf (durm1 : BitVec 8) : Nat := durm1.toNat + 1

/-- `Dur(i)` (R23). -/
def Voice.dur (v : Voice Osc) : Nat := durOf v.durm1

/-- `Remain(i) = Dur(i) - eu[i]`, the duration budget (R25). -/
def Voice.remain (v : Voice Osc) : Nat := v.dur - v.eu.toNat

/-- The number of ticks the voice has consumed since its load (R25). -/
def Voice.consumed (cfg : Cfg Osc) (v : Voice Osc) : Nat := v.eu.toNat * cfg.timeUnit + v.es

/-- A voice field names a record of this instance (R82 a). -/
def voiceLegal (s : State.Of Osc) (v : VoiceIdx) : Bool := decide (v.toNat < s.nv)

/-- A volume field is in the engine's range (R82 b). -/
def volLegal (vol : BitVec 8) : Bool := decide (vol.toNat ≤ volMax)

/-- `x >>a k`: division by `2^k` rounding toward minus infinity (R10). -/
def asr (x : Int) (k : Nat) : Int := x / (2 ^ k : Nat)

/-- `Contribution(raw, vol, g)` (R105). -/
def contribution (raw : Int) (vol g : Nat) : Int := asr (raw * vol * g) (volShift + gainShift)

/-- `ES_W = max(1, ceil(log2(TIME_UNIT)))` (R21), for `TIME_UNIT >= 1`. -/
def esWidth (timeUnit : Nat) : Nat := Nat.log2 (timeUnit - 1) + 1

end Sys2Proof.Machine
end

