-- ==== Sys2Proof/Machine/Flags.lean ====
section
/-! DEFINITION. The two status conditions of R31, `done[i]` and `clipped`, with the clamp and the counter that go with
the second (R134, R135). EVM has no other flag. -/

namespace Sys2Proof.Machine

variable {Osc : Type}

/-- `done[i] = (phase[i] == DONE)` (R31). -/
def Voice.isDone (v : Voice Osc) : Bool := decide (v.phase = .done)

/-- `clamp(x, lo, hi)` (R10). -/
def clamp (x lo hi : Int) : Int := if x < lo then lo else if hi < x then hi else x

/-- Saturation to the signed output range (R134). -/
def saturate (acc : Int) : Int := clamp acc sampleMin sampleMax

/-- The condition `clipped` of one TICK (R31, R135): the sum lay outside the range. -/
def clipped (acc : Int) : Bool := decide (saturate acc ≠ acc)

/-- `clipcnt` after a TICK with this sum: one more, modulo `2^16`, if it was clamped (R135). -/
def countClip (cnt : BitVec 16) (acc : Int) : BitVec 16 := if clipped acc then cnt + 1 else cnt

end Sys2Proof.Machine
end

