-- ==== Sys2Proof/Machine/Envelope.lean ====
section
/-! DEFINITION. The envelope as functions of elapsed time units: `PhaseAt` (R101), `ENV_GAIN_REF` (R103), and the
instance the machine is: the configuration `CFG_DEFAULT` of R8. -/

namespace Sys2Proof.Machine

variable {Osc : Type}

/-- `PhaseAt(u, rel, dur)`, the tests in the order of R101. -/
def phaseAt (cfg : Cfg Osc) (u rel dur : Nat) : Phase :=
  if dur ≤ u then .done
  else if rel ≤ u then .release
  else if u < cfg.attackUnits then .attack
  else if u < cfg.attackUnits + cfg.decayUnits then .decay
  else .sustain

/-- `Gpre(u)` for `A` attack units, `D` decay units and sustain level `S`: the gain if release had not begun (R103). -/
def gainPre (A D S u : Nat) : Nat :=
  if u < A then gainOne * (u + 1) / A
  else if u < A + D then gainOne - (gainOne - S) * (u - A + 1) / D
  else S

/-- `G0`: the level reached in the last unit before release, or the first step where there was none (R103). -/
def gainAtRelease (A D S rel : Nat) : Nat := if 1 ≤ rel then gainPre A D S (rel - 1) else gainPre A D S 0

/-- `ENV_GAIN_REF(u, rel, dur)` (R103). -/
def envGainRef (A D S u rel dur : Nat) : Nat :=
  if dur ≤ u then 0
  else if rel ≤ u then gainAtRelease A D S rel * (dur - u) / (dur - rel + 1)
  else gainPre A D S u

/-- The instance the machine is: every default of R7, the OPEN parameters left open (`CFG_DEFAULT`, R8). The gain is
the default `ENV_GAIN_REF` (log 4). -/
def evm : Cfg OscState where
  timeUnit := Config.timeUnitPred + 1
  attackUnits := Config.attackUnits
  decayUnits := Config.decayUnits
  sustainLevel := Config.sustainLevel.val
  envGain := envGainRef Config.attackUnits Config.decayUnits Config.sustainLevel.val
  oscReset := Config.oscReset
  oscLoad := Config.oscLoad
  oscStep := Config.oscStep

end Sys2Proof.Machine
end

