-- ==== Sys2Proof/Machine/VoiceEngine.lean ====
section
/-! DEFINITION. The voice engine: `VoiceStep` (R107 to R109) and LOAD (R112). -/

namespace Sys2Proof.Machine

variable {Osc : Type}

/-- What one tick of one voice answers (R107). -/
structure VoiceTick (Osc : Type) where
  /-- The voice's registers after the step. -/
  voice : Voice Osc
  /-- The contribution `c`. -/
  contrib : Int
  /-- The flag `d`: the voice is DONE after the step. -/
  done : Bool
  /-- The raw sample, if the oscillator was stepped. -/
  raw : Option Sample
  deriving DecidableEq, Repr

/-- The oscillator's part of a step: not called while `freq` is 0 (R108). -/
def oscTick (cfg : Cfg Osc) (v : Voice Osc) : Osc × Option Sample :=
  if v.freq = 0 then (v.osc, none) else ((cfg.oscStep v.osc).1, some (cfg.oscStep v.osc).2)

/-- The raw sample of a step, 0 in a pause (R107, R108). -/
def rawValue (raw : Option Sample) : Int :=
  match raw with
  | some x => x.toInt
  | none => 0

/-- The contribution of a voice that is not DONE, from its registers before the advance (R107). -/
def voiceContrib (cfg : Cfg Osc) (v : Voice Osc) : Int :=
  contribution (rawValue (oscTick cfg v).2) v.vol.toNat (cfg.envGain v.eu.toNat v.rel.toNat v.dur)

/-- The counters and the phase after one tick (R107): a new unit, and with it a new phase, only when this tick
completes a time unit. -/
def advance (cfg : Cfg Osc) (v : Voice Osc) : Voice Osc :=
  if v.es = cfg.timeUnit - 1 then
    { v with es := 0, eu := v.eu + 1, phase := phaseAt cfg (v.eu + 1).toNat v.rel.toNat v.dur }
  else { v with es := (v.es + 1) % 2 ^ esWidth cfg.timeUnit }

/-- `VoiceStep(i)` on the registers of voice `i` (R107); a DONE voice answers `(0, true)` and changes nothing (R109). -/
def voiceStep (cfg : Cfg Osc) (v : Voice Osc) : VoiceTick Osc :=
  if v.phase = .done then { voice := v, contrib := 0, done := true, raw := none }
  else
    let v' := advance cfg { v with osc := (oscTick cfg v).1 }
    { voice := v', contrib := voiceContrib cfg v, done := v'.isDone, raw := (oscTick cfg v).2 }

/-- A voice record after LOAD: the frame copied in, the envelope restarted at position 0, the oscillator configured
from its old state (R112). -/
def loadVoice (cfg : Cfg Osc) (freq : Freq) (vol durm1 rel : BitVec 8) (old : Voice Osc) : Voice Osc where
  freq := freq
  vol := vol
  durm1 := durm1
  rel := rel
  phase := phaseAt cfg 0 rel.toNat (durOf durm1)
  eu := 0
  es := 0
  osc := cfg.oscLoad old.osc freq

/-- The state after a LOAD that breaks no contract (R112). -/
def loaded (cfg : Cfg Osc) (v : VoiceIdx) (freq : Freq) (vol durm1 rel : BitVec 8) (s : State.Of Osc) : State.Of Osc :=
  ((s.updateVoice v.toNat (loadVoice cfg freq vol durm1 rel)).setMask v.toNat).withActivity
    { sampleValid := false, oscCalls := [.load v.toNat freq] }

/-- LOAD on any instance (R112): V1 is tested before V2. -/
def load (cfg : Cfg Osc) (v : VoiceIdx) (freq : Freq) (vol durm1 rel : BitVec 8) (s : State.Of Osc) :
    Host.Outcome (State.Of Osc) Fault Refusal :=
  if voiceLegal s v then
    if volLegal vol then .next (loaded cfg v freq vol durm1 rel s)
    else .refused .volumeOutOfRange
  else .refused .voiceOutOfRange

/-- LOAD (R112). -/
def execLoad (v : VoiceIdx) (freq : Freq) (vol durm1 rel : BitVec 8) (s : State) :
    Host.Outcome State Fault Refusal :=
  load evm v freq vol durm1 rel s

end Sys2Proof.Machine
end

