-- ==== Sys2Proof/Machine/Mixer.lean ====
section
/-! DEFINITION. The polyphonic mixer: TICK (R130), ENABLE (R140) and DISABLE (R141). -/

namespace Sys2Proof.Machine

variable {Osc : Type}

/-- The mixer in the middle of a TICK: the registers it rewrites, the accumulator (R35, unbounded, log 11) and the
oscillator calls so far. No state of the machine: a TICK is one atomic event (R36, R56). -/
structure Mix (Osc : Type) where
  voices : List (Voice Osc)
  mask : BitVec 16
  acc : Int
  calls : List OscCall
  deriving DecidableEq, Repr

/-- The call a step of voice `i` made on the capability port, if any. -/
def stepCall (i : Nat) (raw : Option Sample) : List OscCall :=
  match raw with
  | some x => [.step i x]
  | none => []

/-- One visit of the loop of R130: step voice `i` if its bit is set, add its contribution, retire it if it is DONE. -/
def mixVoice (cfg : Cfg Osc) (m : Mix Osc) (i : Nat) : Mix Osc :=
  if m.mask.getLsbD i then
    match m.voices[i]? with
    | some v =>
      { voices := m.voices.set i (voiceStep cfg v).voice
        mask := if (voiceStep cfg v).done then maskClear m.mask i else m.mask
        acc := m.acc + (voiceStep cfg v).contrib
        calls := m.calls ++ stepCall i (voiceStep cfg v).raw }
    | none => m
  else m

/-- The indices `n-1, ..., 1, 0` in that order (R131). -/
def descending : Nat → List Nat
  | 0 => []
  | n + 1 => n :: descending n

/-- The visits of the indices of a list, one after another. -/
def mixAlong (cfg : Cfg Osc) (order : List Nat) (m : Mix Osc) : Mix Osc := order.foldl (mixVoice cfg) m

/-- The mixer at the start of a TICK (R130). -/
def mixStart (s : State.Of Osc) : Mix Osc := { voices := s.voices, mask := s.mask, acc := 0, calls := [] }

/-- The mixer after the loop `for i = NV-1 downto 0` (R130, R131). -/
def mixed (cfg : Cfg Osc) (s : State.Of Osc) : Mix Osc := mixAlong cfg (descending s.nv) (mixStart s)

/-- The state a TICK leaves, given the mixer after its loop (R130, R134 to R136). -/
def finishTick (s : State.Of Osc) (m : Mix Osc) : State.Of Osc :=
  { s with
    voices := m.voices
    mask := m.mask
    clipcnt := countClip s.clipcnt m.acc
    out := BitVec.ofInt 8 (saturate m.acc)
    activity := { sampleValid := true, oscCalls := m.calls } }

/-- The state after TICK on any instance (R130). -/
def ticked (cfg : Cfg Osc) (s : State.Of Osc) : State.Of Osc := finishTick s (mixed cfg s)

/-- TICK on any instance (R130): never refused. -/
def tick (cfg : Cfg Osc) (s : State.Of Osc) : Host.Outcome (State.Of Osc) Fault Refusal := .next (ticked cfg s)

/-- ENABLE on any instance (R140): the mask bit is set, no voice register changes. -/
def enable (v : VoiceIdx) (s : State.Of Osc) : Host.Outcome (State.Of Osc) Fault Refusal :=
  if voiceLegal s v then .next ((s.setMask v.toNat).withActivity .quiet) else .refused .voiceOutOfRange

/-- DISABLE on any instance (R141): the mask bit is cleared, no voice register changes. -/
def disable (v : VoiceIdx) (s : State.Of Osc) : Host.Outcome (State.Of Osc) Fault Refusal :=
  if voiceLegal s v then .next ((s.clearMask v.toNat).withActivity .quiet) else .refused .voiceOutOfRange

/-- TICK (R130). -/
def execTick (s : State) : Host.Outcome State Fault Refusal := tick evm s

/-- ENABLE (R140). -/
def execEnable (v : VoiceIdx) (s : State) : Host.Outcome State Fault Refusal := enable v s

/-- DISABLE (R141). -/
def execDisable (v : VoiceIdx) (s : State) : Host.Outcome State Fault Refusal := disable v s

end Sys2Proof.Machine
end

