-- ==== Sys2Proof/Machine/Dispatch.lean ====
section
/-! DEFINITION. One arm per operation of OPSET-1 (R74). -/

namespace Sys2Proof.Machine

-- R74: the operation selects its meaning.
def exec (i : Instr) (s : State) : Host.Outcome State Fault Refusal :=
  match i with
  | .load v freq vol durm1 rel => Sys2Proof.Machine.execLoad v freq vol durm1 rel s
  | .enable v => Sys2Proof.Machine.execEnable v s
  | .disable v => Sys2Proof.Machine.execDisable v s
  | .tick => Sys2Proof.Machine.execTick s

end Sys2Proof.Machine
end

