-- ==== Sys2Proof/Machine/Events.lean ====
section
/-! DEFINITION. Executing one event (R56): a reset, an operation word, or nothing. What an operation does is an argument,
so that the machine and every other instance share these. -/

namespace Sys2Proof.Machine

variable {Osc : Type}

/-- Execute an issued operation word: decode it, then its operation; a reserved code is contract violation V3
(R81, R162). -/
def runWordBy (run : Instr → State.Of Osc → Host.Outcome (State.Of Osc) Fault Refusal) (w : OpWord)
    (s : State.Of Osc) : Host.Outcome (State.Of Osc) Fault Refusal :=
  match decodeWord w with
  | .ok i => run i s
  | .error _ => .refused .reservedOp

/-- Execute one event. With nothing requested EVM holds its registers (R176) and the strobes fall (log 24). -/
def runEventBy (cfg : Cfg Osc) (run : Instr → State.Of Osc → Host.Outcome (State.Of Osc) Fault Refusal) (e : Event)
    (s : State.Of Osc) : Host.Outcome (State.Of Osc) Fault Refusal :=
  match e with
  | .idle => .next (s.withActivity .quiet)
  | .reset => .next (resetEvent cfg s)
  | .op w => runWordBy run w s

/-- An operation word issued to the machine. -/
def runWord (w : OpWord) (s : State) : Host.Outcome State Fault Refusal := runWordBy exec w s

/-- One event of the machine. -/
def runEvent (e : Event) (s : State) : Host.Outcome State Fault Refusal := runEventBy evm exec e s

end Sys2Proof.Machine
end

