-- ==== Sys2Proof/Machine/Step.lean ====
section
/-! DEFINITION. One step: take the next request off the ports and execute it as one atomic event (R56, R166). -/

namespace Sys2Proof.Machine

/-- One step of the machine. -/
def step (s : State) : Host.Outcome State Fault Refusal :=
  runEvent (nextEvent s.requests).1 (s.withRequests (nextEvent s.requests).2)

/-- `s` with an operation word presented before everything the host still has to present, so that the next step
issues it (log 9). -/
def State.withFetchWord (s : State) (nbits w : Nat) : State :=
  s.withRequests (presentWord (wordOfTable nbits w) :: s.requests)

end Sys2Proof.Machine
end

