-- ==== Sys2Proof/Machine/Assembler.lean ====
section
/-! DEFINITION. The assembler of R86 to R88: what a line of a listing presents to EVM, and how a line is written. The
text is a list of characters. What the spec leaves open of the text (blanks, capitals, empty lines) is log 21. -/

namespace Sys2Proof.Machine

/-- A line of a listing: the four operations and RESET (R86), and the pseudo-operations (R87). Durations are true
durations. -/
inductive AsmLine where
  | load (v freq vol dur rel : Nat)
  | enable (v : Nat)
  | disable (v : Nat)
  | tick
  | reset
  | pause (v dur : Nat)
  | ticks (n : Nat)
  | legato (v freq vol dur : Nat)
  deriving DecidableEq, Repr

/-- A value that fits a field of `width` bits (R86). -/
def fitsField (width n : Nat) : Bool := decide (n < 2 ^ width)

/-- LOAD with a true duration; a value that does not fit its field is rejected, one that fits but is illegal under R82
is accepted (R73, R86). -/
def asmLoad (v freq vol dur rel : Nat) : Option Instr :=
  if fitsField 4 v && fitsField 16 freq && fitsField 8 vol && decide (1 ≤ dur) && fitsField 8 (dur - 1)
      && fitsField 8 rel then
    some (.load (BitVec.ofNat 4 v) (BitVec.ofNat 16 freq) (BitVec.ofNat 8 vol) (BitVec.ofNat 8 (dur - 1))
      (BitVec.ofNat 8 rel))
  else none

/-- ENABLE or DISABLE of a voice index that fits its field. -/
def asmVoice (op : VoiceIdx → Instr) (v : Nat) : Option Instr :=
  if fitsField 4 v then some (op (BitVec.ofNat 4 v)) else none

/-- The release point of the pseudo-operation LEGATO: `min(dur, 2^REL_W - 1)` (R87). -/
def legatoRel (dur : Nat) : Nat := min dur 255

/-- The host instants that present a list of operations, one after another, in their canonical words (R88). -/
def presentAll (is : List Instr) : List Requests := is.map fun i => presentWord (encode i)

/-- What a line presents (R86, R87); `none` where the assembler rejects it. -/
def assemble : AsmLine → Option (List Requests)
  | .load v freq vol dur rel => (asmLoad v freq vol dur rel).map fun i => presentAll [i]
  | .enable v => (asmVoice .enable v).map fun i => presentAll [i]
  | .disable v => (asmVoice .disable v).map fun i => presentAll [i]
  | .tick => some (presentAll [.tick])
  | .reset => some [presentReset]
  | .pause v dur => (asmLoad v 0 0 dur 0).map fun i => presentAll [i]
  | .ticks n => some (presentAll (List.replicate n .tick))
  | .legato v freq vol dur => (asmLoad v freq vol dur (legatoRel dur)).map fun i => presentAll [i]

/-! ### The text of a line -/

/-- A blank between the parts of a line. -/
def isBlank (c : Char) : Bool := decide (c = ' ') || decide (c = '\t')

/-- The text without the comment that `;` starts (R86). -/
def dropComment (cs : List Char) : List Char := cs.takeWhile fun c => decide (c ≠ ';')

/-- The text without blanks at either end. -/
def trimBlanks (cs : List Char) : List Char := ((cs.dropWhile isBlank).reverse.dropWhile isBlank).reverse

/-- The value of a decimal digit, or of a hexadecimal one when `base` is 16. -/
def digitValue (base : Nat) (c : Char) : Option Nat :=
  let n := c.toNat
  if 48 ≤ n ∧ n ≤ 57 then some (n - 48)
  else if base = 16 ∧ 97 ≤ n ∧ n ≤ 102 then some (n - 87)
  else if base = 16 ∧ 65 ≤ n ∧ n ≤ 70 then some (n - 55)
  else none

/-- The digits of a number after a value already read. -/
def readDigits (base acc : Nat) : List Char → Option Nat
  | [] => some acc
  | c :: cs => (digitValue base c).bind fun d => readDigits base (acc * base + d) cs

/-- A number, decimal or `0x` hexadecimal (R86). -/
def readNumber : List Char → Option Nat
  | [] => none
  | ['0', 'x'] => none
  | '0' :: 'x' :: cs => readDigits 16 0 cs
  | cs => readDigits 10 0 cs

/-- The pieces of a text between its commas. -/
def splitCommas : List Char → List (List Char)
  | [] => [[]]
  | c :: cs =>
    if c = ',' then [] :: splitCommas cs
    else match splitCommas cs with
      | [] => [[c]]
      | p :: ps => (c :: p) :: ps

/-- The operands of a line: none, or numbers between commas. -/
def readOperands (cs : List Char) : Option (List Nat) :=
  if trimBlanks cs = [] then some []
  else ((splitCommas cs).map trimBlanks).mapM readNumber

/-- The operation a mnemonic and its operands name (R86, R87). -/
def lineOf (name : List Char) (ops : List Nat) : Option AsmLine :=
  if name = ['L', 'O', 'A', 'D'] then
    match ops with
    | [v, freq, vol, dur, rel] => some (.load v freq vol dur rel)
    | _ => none
  else if name = ['E', 'N', 'A', 'B', 'L', 'E'] then
    match ops with
    | [v] => some (.enable v)
    | _ => none
  else if name = ['D', 'I', 'S', 'A', 'B', 'L', 'E'] then
    match ops with
    | [v] => some (.disable v)
    | _ => none
  else if name = ['T', 'I', 'C', 'K'] then
    match ops with
    | [] => some .tick
    | _ => none
  else if name = ['R', 'E', 'S', 'E', 'T'] then
    match ops with
    | [] => some .reset
    | _ => none
  else if name = ['P', 'A', 'U', 'S', 'E'] then
    match ops with
    | [v, dur] => some (.pause v dur)
    | _ => none
  else if name = ['T', 'I', 'C', 'K', 'S'] then
    match ops with
    | [n] => some (.ticks n)
    | _ => none
  else if name = ['L', 'E', 'G', 'A', 'T', 'O'] then
    match ops with
    | [v, freq, vol, dur] => some (.legato v freq vol dur)
    | _ => none
  else none

/-- What a line of text presents; a line with nothing but blanks and a comment presents nothing. -/
def assembleText (cs : List Char) : Option (List Requests) :=
  let text := trimBlanks (dropComment cs)
  if text = [] then some []
  else
    let name := text.takeWhile fun c => !isBlank c
    (readOperands (text.drop name.length)).bind fun ops => (lineOf name ops).bind assemble

/-- What a listing presents, line after line; `none` if a line is rejected. -/
def assembleListing : List (List Char) → Option (List Requests)
  | [] => some []
  | l :: ls => (assembleText l).bind fun rs => (assembleListing ls).map fun rest => rs ++ rest

end Sys2Proof.Machine
end

