-- ==== Sys2Proof/Machine/Instance.lean ====
section
/-! DEFINITION. EVM on any instance (R7, R8, R26): the operations, a step and the machine with the parameter record and
the type of oscillator states as arguments. -/

namespace Sys2Proof.Machine

variable {Osc : Type}

/-- An operation on an instance (R74). -/
def execOn (cfg : Cfg Osc) (i : Instr) (s : State.Of Osc) : Host.Outcome (State.Of Osc) Fault Refusal :=
  match i with
  | .load v freq vol durm1 rel => load cfg v freq vol durm1 rel s
  | .enable v => enable v s
  | .disable v => disable v s
  | .tick => tick cfg s

/-- One step of an instance (R56, R166). -/
def stepOn (cfg : Cfg Osc) (s : State.Of Osc) : Host.Outcome (State.Of Osc) Fault Refusal :=
  runEventBy cfg (execOn cfg) (nextEvent s.requests).1 (s.withRequests (nextEvent s.requests).2)

/-- The instance with `nv` voices, as a machine. -/
def coreOn (cfg : Cfg Osc) (nv : Nat) : Host.Core :=
  { State := State.Of Osc, Fault := Fault, Refusal := Refusal, step := stepOn cfg,
    reset := State.Of.afterReset nv cfg.oscReset }

end Sys2Proof.Machine
end

