-- ==== Sys2Proof/Machine/Ports.lean ====
section
/-! DEFINITION. The output ports of R51, defined between events (R204), and the observation of a run (R14). -/

namespace Sys2Proof.Machine

variable {Osc : Type}

/-- The 3-bit code of a phase (R24). -/
def Phase.code : Phase → BitVec 3
  | .attack => 0
  | .decay => 1
  | .sustain => 2
  | .release => 3
  | .done => 4

/-- `sample_out`. -/
def State.Of.sampleOut (s : State.Of Osc) : Sample := s.out

/-- `sample_valid`. -/
def State.Of.sampleValid (s : State.Of Osc) : Bool := s.activity.sampleValid

/-- `mask_out`, `NV` bits. -/
def State.Of.maskOut (s : State.Of Osc) : BitVec s.nv := s.mask.setWidth s.nv

/-- `clip_out`. -/
def State.Of.clipOut (s : State.Of Osc) : BitVec 16 := s.clipcnt

/-- `phase_out[i]`, for `0 <= i < NV`. -/
def State.Of.phaseOut (s : State.Of Osc) (i : Nat) : Option (BitVec 3) := (s.voice? i).map fun v => v.phase.code

/-- `done_out[i]`, for `0 <= i < NV`. -/
def State.Of.doneOut (s : State.Of Osc) (i : Nat) : Option Bool := (s.voice? i).map Voice.isDone

/-- `op_ready`: 1 in every state between events (R36, R66). -/
def State.Of.opReady (_ : State.Of Osc) : Bool := true

/-- What a claim about a run may observe between events (R14), and the sample of the event just ended if it was a
TICK. -/
structure Observation where
  sample : Option Sample
  mask : BitVec 16
  out : Sample
  clipcnt : BitVec 16
  phases : List (BitVec 3)
  dones : List Bool
  deriving DecidableEq, Repr

/-- The observation of a state. -/
def State.Of.observe (s : State.Of Osc) : Observation where
  sample := if s.activity.sampleValid then some s.out else none
  mask := s.mask
  out := s.out
  clipcnt := s.clipcnt
  phases := s.voices.map fun v => v.phase.code
  dones := s.voices.map Voice.isDone

end Sys2Proof.Machine
end

