-- ==== Sys2Proof/Safety.lean ====
section
/-! DEFINITION. What claims about runs are stated in: the invariants of R27, what a TICK adds up, and a run in which the
host keeps its duties (R62). -/

namespace Sys2Proof.Machine

variable {Osc : Type}

/-- The invariants (I1) to (I6) of R27 for one voice. (I3) holds by the type `Phase`. "Not been loaded since reset" of
(I5) is: the record is the reset record. -/
structure VoiceInv (cfg : Cfg Osc) (v : Voice Osc) : Prop where
  es_lt : v.es < cfg.timeUnit
  eu_le : v.eu.toNat ≤ v.dur
  live : v.phase ≠ .done → v.eu.toNat < v.dur ∧ v.phase = phaseAt cfg v.eu.toNat v.rel.toNat v.dur
  ended : v.phase = .done → v.es = 0 ∧ (v.eu.toNat = v.dur ∨ v = Voice.atReset cfg.oscReset)
  vol_le : v.vol.toNat ≤ volMax

/-- The invariants of a state: `1 <= NV <= 16` (R7), R27 for every voice, and no mask bit from `NV` up (R32). -/
structure Inv (cfg : Cfg Osc) (s : State.Of Osc) : Prop where
  nv_pos : 1 ≤ s.nv
  nv_le : s.nv ≤ 16
  voices : ∀ v ∈ s.voices, VoiceInv cfg v
  mask_lt : ∀ i, s.nv ≤ i → s.enabled i = false

/-- What voice `i` contributes to a TICK taken in `s`: nothing unless its bit is set (R129, R130). -/
def contribIn (cfg : Cfg Osc) (s : State.Of Osc) (i : Nat) : Int :=
  match s.voice? i with
  | some v => if s.enabled i then (voiceStep cfg v).contrib else 0
  | none => 0

/-- The sum of the enabled voices' contributions in a TICK taken in `s` (R132). -/
def mixSum (cfg : Cfg Osc) (s : State.Of Osc) : Int := ((List.range s.nv).map (contribIn cfg s)).sum

/-- Voice `i` is enabled and reports DONE in a TICK taken in `s` (R133). -/
def retires (cfg : Cfg Osc) (s : State.Of Osc) (i : Nat) : Bool :=
  match s.voice? i with
  | some v => s.enabled i && (voiceStep cfg v).done
  | none => false

/-- The calls voice `i` makes on the capability port in a TICK taken in `s` (R107, R108). -/
def oscCallsIn (cfg : Cfg Osc) (s : State.Of Osc) (i : Nat) : List OscCall :=
  match s.voice? i with
  | some v => if s.enabled i then stepCall i (voiceStep cfg v).raw else []
  | none => []

/-- `n` ticks of one enabled voice (R110). -/
def voiceTicks (cfg : Cfg Osc) : Nat → Voice Osc → Voice Osc
  | 0, v => v
  | n + 1, v => (voiceStep cfg (voiceTicks cfg n v)).voice

/-- The operations of a list, one after another, stopping at the first that is refused. -/
def execAll : List Instr → State → Host.Outcome State Fault Refusal
  | [], s => .next s
  | i :: is, s =>
    match exec i s with
    | .next t => execAll is t
    | .fault r => .fault r
    | .refused r => .refused r

/-- A state but for the record of port activity, which tells only what the last event did. -/
def State.Of.still (s : State.Of Osc) : State.Of Osc := s.withActivity .quiet

/-- A host instant that keeps the duties of R62: the word presented, if any, is an operation that breaks no contract. -/
def Requests.dutiful (nv : Nat) (r : Requests) : Bool :=
  match r.op with
  | some w =>
    match decodeWord w with
    | .ok i => i.wellFormed nv
    | .error _ => false
  | none => true

/-- Everything the host still presents keeps its duties. -/
def State.Of.hostDutiful (s : State.Of Osc) : Prop := ∀ r ∈ s.requests, r.dutiful s.nv = true

/-! ### Instances that differ in their oscillator only -/

/-- A voice record with its oscillator state renamed. -/
def Voice.mapOsc {A B : Type} (f : A → B) (v : Voice A) : Voice B where
  freq := v.freq
  vol := v.vol
  durm1 := v.durm1
  rel := v.rel
  phase := v.phase
  eu := v.eu
  es := v.es
  osc := f v.osc

/-- A state with every oscillator state renamed. -/
def State.Of.mapOsc {A B : Type} (f : A → B) (s : State.Of A) : State.Of B where
  voices := s.voices.map (Voice.mapOsc f)
  mask := s.mask
  clipcnt := s.clipcnt
  out := s.out
  activity := s.activity
  requests := s.requests

/-- The next state renamed; a stop stays the stop it is. -/
def renameNext {A B : Type} (f : A → B) : Host.Outcome (State.Of A) Fault Refusal →
    Host.Outcome (State.Of B) Fault Refusal
  | .next t => .next (t.mapOsc f)
  | .fault r => .fault r
  | .refused r => .refused r

/-- Two instances with the same parameters, the oscillator of the one carried to that of the other by `f`: same raw
samples, states renamed (R104). -/
structure Cfg.Renames {A B : Type} (f : A → B) (a : Cfg A) (b : Cfg B) : Prop where
  timeUnit : b.timeUnit = a.timeUnit
  attackUnits : b.attackUnits = a.attackUnits
  decayUnits : b.decayUnits = a.decayUnits
  envGain : b.envGain = a.envGain
  oscReset : b.oscReset = f a.oscReset
  oscLoad : ∀ s freq, b.oscLoad (f s) freq = f (a.oscLoad s freq)
  oscStep : ∀ s, b.oscStep (f s) = (f (a.oscStep s).1, (a.oscStep s).2)

/-! ### Runs -/

/-- A run that is never refused: every number of steps has a next state. -/
def Safe (s : State) : Prop := ∀ k, ∃ t, Sys2Proof.core.run k s = .next t

end Sys2Proof.Machine
end

