-- ==== Sys2Proof/Certificates/Slice0/Obligations.lean ====
section
/-! DEFINITION. The statements for the provers, each from the numbered rules its docstring cites. -/

open Sys2Proof Sys2Proof.Machine

/-! ### Words and bytes -/

/-- R85, R88, R89: decoding the canonical word of any operation, or its six bytes in front of any others, gives the
operation back, with every operand at every value. -/
def Obligations.DecodeOfEncode : Prop :=
  ∀ (i : Instr) (rest : List Byte),
    decodeWord (encode i) = .ok i ∧ decodeBytes (bytesOfWord (encode i) ++ rest) = .ok (i, rest)

/-- R75: a LOAD word has no ignored bit; two different words never decode to the same LOAD. -/
def Obligations.LoadWordKeepsEveryBit : Prop :=
  ∀ (w : OpWord), w &&& 0xF00000000000#48 = 0x100000000000#48 →
    ∃ v freq vol durm1 rel, decodeWord w = .ok (.load v freq vol durm1 rel) ∧
      encode (.load v freq vol durm1 rel) = w

/-- R80, with the match patterns of R76 to R78: ENABLE and DISABLE depend on the `voice` field alone, TICK on nothing;
the canonical words have zeros in the bits ignored. -/
def Obligations.IgnoredBitsChangeNothing : Prop :=
  ∀ w : OpWord,
    (w &&& 0xF00000000000#48 = 0x200000000000#48 → decodeWord w = .ok (.enable (voiceField w))) ∧
    (w &&& 0xF00000000000#48 = 0x300000000000#48 → decodeWord w = .ok (.disable (voiceField w))) ∧
    (w &&& 0xF00000000000#48 = 0x400000000000#48 → decodeWord w = .ok .tick) ∧
    (∀ v : VoiceIdx, encode (.enable v) &&& 0x00FFFFFFFFFF#48 = 0 ∧ encode (.disable v) &&& 0x00FFFFFFFFFF#48 = 0) ∧
    encode .tick &&& 0x0FFFFFFFFFFF#48 = 0

/-- R81: the decoder returns "reserved" for the twelve codes and an operation for the other four; issuing a reserved
word is refused (R162). -/
def Obligations.ReservedCodesAreNoOperation : Prop :=
  ∀ (w : OpWord) (s : State),
    if (opField w).toNat = 0 ∨ 5 ≤ (opField w).toNat then
      decodeWord w = .error (.reservedOp (opField w)) ∧ runWord w s = .refused .reservedOp
    else ∃ i, decodeWord w = .ok i ∧ runWord w s = exec i s

/-- R90: the worked encodings, as words and as bytes. -/
def Obligations.WorkedEncodingsHold : Prop :=
  encode (.load 0 440 128 7 6) = 0x1001B8800706#48 ∧
  bytesOfWord 0x1001B8800706#48 = [0x06, 0x07, 0x80, 0xB8, 0x01, 0x10] ∧
  decodeWord 0x1001B8800706#48 = .ok (.load 0 440 128 7 6) ∧
  encode (.load 15 65535 0 255 255) = 0x1FFFFF00FFFF#48 ∧
  bytesOfWord 0x1FFFFF00FFFF#48 = [0xFF, 0xFF, 0x00, 0xFF, 0xFF, 0x1F] ∧
  decodeWord 0x1FFFFF00FFFF#48 = .ok (.load 15 65535 0 255 255) ∧
  assemble (.pause 2 4) = some [presentWord 0x120000000300#48] ∧
  bytesOfWord 0x120000000300#48 = [0x00, 0x03, 0x00, 0x00, 0x00, 0x12] ∧
  decodeWord 0x120000000300#48 = .ok (.load 2 0 0 3 0) ∧
  encode (.enable 3) = 0x230000000000#48 ∧
  bytesOfWord 0x230000000000#48 = [0x00, 0x00, 0x00, 0x00, 0x00, 0x23] ∧
  decodeWord 0x230000000000#48 = .ok (.enable 3) ∧
  encode (.disable 3) = 0x330000000000#48 ∧
  bytesOfWord 0x330000000000#48 = [0x00, 0x00, 0x00, 0x00, 0x00, 0x33] ∧
  decodeWord 0x330000000000#48 = .ok (.disable 3) ∧
  encode .tick = 0x400000000000#48 ∧
  bytesOfWord 0x400000000000#48 = [0x00, 0x00, 0x00, 0x00, 0x00, 0x40] ∧
  decodeWord 0x400000000000#48 = .ok .tick ∧
  decodeWord 0x000000000000#48 = .error (.reservedOp 0)

/-- R88: the word the assembler presents for each operation, by the formula of the rule; a LOAD is accepted exactly
when every value fits its field (R86). -/
def Obligations.AssemblerWritesCanonicalWords : Prop :=
  (∀ v freq vol dur rel : Nat, v < 16 → freq < 65536 → vol < 256 → 1 ≤ dur → dur ≤ 256 → rel < 256 →
    ∃ w : OpWord, assemble (.load v freq vol dur rel) = some [presentWord w] ∧
      w.toNat = 1 * 2 ^ 44 + v * 2 ^ 40 + freq * 2 ^ 24 + vol * 2 ^ 16 + (dur - 1) * 2 ^ 8 + rel) ∧
  (∀ v freq vol dur rel : Nat,
    ¬ (v < 16 ∧ freq < 65536 ∧ vol < 256 ∧ 1 ≤ dur ∧ dur ≤ 256 ∧ rel < 256) →
    assemble (.load v freq vol dur rel) = none) ∧
  (∀ v : Nat, v < 16 →
    (∃ w : OpWord, assemble (.enable v) = some [presentWord w] ∧ w.toNat = 2 * 2 ^ 44 + v * 2 ^ 40) ∧
    (∃ w : OpWord, assemble (.disable v) = some [presentWord w] ∧ w.toNat = 3 * 2 ^ 44 + v * 2 ^ 40)) ∧
  (∀ v : Nat, 16 ≤ v → assemble (.enable v) = none ∧ assemble (.disable v) = none) ∧
  assemble .tick = some [presentWord 0x400000000000#48]

/-- R87: the expansions of PAUSE, TICKS and LEGATO; a LEGATO note has no release unit when `dur <= 255`, and exactly
the last one, 255, when `dur = 256`. -/
def Obligations.PseudoOperationsExpand : Prop :=
  (∀ v dur, assemble (.pause v dur) = assemble (.load v 0 0 dur 0)) ∧
  (∀ n, assemble (.ticks n) = some (List.replicate n (presentWord 0x400000000000#48))) ∧
  (∀ v freq vol dur,
    assemble (.legato v freq vol dur) = assemble (.load v freq vol dur (min dur (2 ^ 8 - 1)))) ∧
  (∀ (Osc : Type) (cfg : Cfg Osc) (u dur : Nat), dur ≤ 255 → phaseAt cfg u (legatoRel dur) dur ≠ .release) ∧
  (∀ (Osc : Type) (cfg : Cfg Osc) (u : Nat), phaseAt cfg u (legatoRel 256) 256 = .release ↔ u = 255)

/-! ### Events -/

/-- R56: when the request taken is an operation word that decodes to `i`, the step is `exec i`, on the state with that
word taken off the ports and `tick_req`, if asserted with it, still pending. -/
def Obligations.StepRunsDecodedOperation : Prop :=
  ∀ (s : State) (r : Requests) (rest : List Requests) (w : OpWord) (i : Instr),
    s.requests = r :: rest → r.rst = false → r.op = some w → decodeWord w = .ok i →
    step s = exec i (s.withRequests (if r.tick then { r with op := none } :: rest else rest))

/-- R79: asserting `tick_req` is the same as issuing the canonical TICK word. -/
def Obligations.TickRequestIsTickWord : Prop :=
  ∀ (s : State) (rest : List Requests),
    step (s.withRequests ({ rst := false, op := none, tick := true } :: rest)) =
        step (s.withRequests ({ rst := false, op := some 0x400000000000#48, tick := false } :: rest)) ∧
    step (s.withRequests ({ rst := false, op := none, tick := true } :: rest)) =
        exec .tick (s.withRequests rest)

/-- R166: requests present together are taken as `rst`, then the operation, then `tick_req`, one event each; what was
not taken is taken next, unless `rst` was taken, which discards it. Two TICKs occur when the operation is a TICK too. -/
def Obligations.RequestsTakenInFixedOrder : Prop :=
  ∀ (s : State) (op : Option OpWord) (w : OpWord) (tick : Bool) (rest : List Requests),
    step (s.withRequests ({ rst := true, op := op, tick := tick } :: rest)) =
        .next (resetEvent evm (s.withRequests rest)) ∧
    step (s.withRequests ({ rst := false, op := some w, tick := true } :: rest)) =
        runWord w (s.withRequests ({ rst := false, op := none, tick := true } :: rest)) ∧
    step (s.withRequests ({ rst := false, op := some w, tick := false } :: rest)) =
        runWord w (s.withRequests rest) ∧
    step (s.withRequests ({ rst := false, op := none, tick := true } :: rest)) =
        runWord 0x400000000000#48 (s.withRequests rest) ∧
    Sys2Proof.core.run 2
        (s.withRequests ({ rst := false, op := some 0x400000000000#48, tick := true } :: rest)) =
      execAll [.tick, .tick] (s.withRequests rest)

/-- R190, R193: the reset event, from any state, puts every register at its reset value; the number of voices stays.
That the host's later instants stay in `requests` is the model's choice (log 7, log 8): R192 discards what is pending at
that moment, which is what stands in the instant of the reset itself. -/
def Obligations.ResetEventClearsEverything : Prop :=
  ∀ (s : State) (op : Option OpWord) (tick : Bool) (rest : List Requests),
    ∃ t, step (s.withRequests ({ rst := true, op := op, tick := tick } :: rest)) = .next t ∧
      t.nv = s.nv ∧
      (∀ i, i < t.nv → t.voice? i = some
        { freq := 0, vol := 0, durm1 := 0, rel := 0, phase := .done, eu := 0, es := 0, osc := evm.oscReset }) ∧
      t.mask = 0 ∧ t.clipcnt = 0 ∧ t.out = 0 ∧ t.requests = rest

/-- R191: the state right after reset, register by register. That it has sixteen voices is the default of R7 (log 2). -/
def Obligations.ResetStateValues : Prop :=
  State.reset.nv = 16 ∧ State.reset.mask = 0 ∧ State.reset.clipcnt = 0 ∧ State.reset.out = 0 ∧
  ∀ i, i < 16 → State.reset.voice? i = some
    { freq := 0, vol := 0, durm1 := 0, rel := 0, phase := .done, eu := 0, es := 0, osc := Config.oscReset }

/-- R176: with no request EVM holds its registers. That such a step exists, and that the strobes fall in it, is the
model's choice (log 24). -/
def Obligations.IdleHoldsRegisters : Prop :=
  ∀ s : State, s.requests = [] →
    ∃ t, step s = .next t ∧ t.voices = s.voices ∧ t.mask = s.mask ∧ t.clipcnt = s.clipcnt ∧ t.out = s.out ∧
      t.requests = [] ∧ t.sampleValid = false

/-! ### LOAD -/

/-- R112, result and frame: a legal LOAD completes, writes the eight registers of its voice and sets its bit; every
other voice and bit, `clipcnt`, `out` and the requests stay. A voice the instance lacks, or else a volume above 128, is
refused under the name of the violation. -/
def Obligations.LoadResult : Prop :=
  ∀ (s : State) (v : VoiceIdx) (freq : Freq) (vol durm1 rel : BitVec 8),
    (∀ old : Voice OscState, s.voice? v.toNat = some old → vol.toNat ≤ 128 →
      ∃ t, exec (.load v freq vol durm1 rel) s = .next t ∧
        t.voice? v.toNat = some
          { freq := freq, vol := vol, durm1 := durm1, rel := rel,
            phase := phaseAt evm 0 rel.toNat (durm1.toNat + 1), eu := 0, es := 0,
            osc := evm.oscLoad old.osc freq } ∧
        t.enabled v.toNat = true ∧
        (∀ j, j ≠ v.toNat → t.voice? j = s.voice? j ∧ t.enabled j = s.enabled j) ∧
        t.nv = s.nv ∧ t.clipcnt = s.clipcnt ∧ t.out = s.out ∧ t.requests = s.requests ∧
        t.sampleValid = false ∧ t.activity.oscCalls = [.load v.toNat freq]) ∧
    (s.nv ≤ v.toNat → exec (.load v freq vol durm1 rel) s = .refused .voiceOutOfRange) ∧
    (v.toNat < s.nv → 128 < vol.toNat → exec (.load v freq vol durm1 rel) s = .refused .volumeOutOfRange)

/-- R112, R114: the phase a LOAD starts in, never DONE. -/
def Obligations.LoadInitialPhase : Prop :=
  ∀ (s t : State) (v : VoiceIdx) (freq : Freq) (vol durm1 rel : BitVec 8) (w : Voice OscState),
    exec (.load v freq vol durm1 rel) s = .next t → t.voice? v.toNat = some w →
    w.phase =
      if rel = 0 then .release
      else if 1 ≤ evm.attackUnits then .attack
      else if 1 ≤ evm.decayUnits then .decay
      else .sustain

/-- R113 (g), (a): of two LOADs on one voice with no TICK between, the second wins entirely, except that the oscillator
state has been through `OscLoad` twice. -/
def Obligations.SecondLoadWins : Prop :=
  ∀ (s : State) (v : VoiceIdx) (f1 f2 : Freq) (vol1 d1 r1 vol2 d2 r2 : BitVec 8) (old : Voice OscState),
    s.voice? v.toNat = some old → vol1.toNat ≤ 128 → vol2.toNat ≤ 128 →
    ∃ t u, execAll [.load v f1 vol1 d1 r1, .load v f2 vol2 d2 r2] s = .next t ∧
      exec (.load v f2 vol2 d2 r2) s = .next u ∧
      t.still = (u.updateVoice v.toNat fun x =>
        { x with osc := evm.oscLoad (evm.oscLoad old.osc f1) f2 }).still

/-! ### ENABLE and DISABLE -/

/-- R140: ENABLE completes when the voice exists, sets its bit and touches nothing else; otherwise it is refused. -/
def Obligations.EnableResult : Prop :=
  ∀ (s : State) (v : VoiceIdx),
    (v.toNat < s.nv → ∃ t, exec (.enable v) s = .next t ∧
      t.enabled v.toNat = true ∧ (∀ j, j ≠ v.toNat → t.enabled j = s.enabled j) ∧
      t.voices = s.voices ∧ t.clipcnt = s.clipcnt ∧ t.out = s.out ∧ t.requests = s.requests ∧
      t.sampleValid = false ∧ t.activity.oscCalls = []) ∧
    (s.nv ≤ v.toNat → exec (.enable v) s = .refused .voiceOutOfRange)

/-- R141: DISABLE completes when the voice exists, clears its bit and touches nothing else; otherwise it is refused. -/
def Obligations.DisableResult : Prop :=
  ∀ (s : State) (v : VoiceIdx),
    (v.toNat < s.nv → ∃ t, exec (.disable v) s = .next t ∧
      t.enabled v.toNat = false ∧ (∀ j, j ≠ v.toNat → t.enabled j = s.enabled j) ∧
      t.voices = s.voices ∧ t.clipcnt = s.clipcnt ∧ t.out = s.out ∧ t.requests = s.requests ∧
      t.sampleValid = false ∧ t.activity.oscCalls = []) ∧
    (s.nv ≤ v.toNat → exec (.disable v) s = .refused .voiceOutOfRange)

/-- R58: ENABLE and DISABLE are idempotent; a repeated LOAD leaves every register but the oscillator state as the first
left it. -/
def Obligations.RepeatedOperationsAreIdempotent : Prop :=
  (∀ (s t : State) (v : VoiceIdx), exec (.enable v) s = .next t → exec (.enable v) t = .next t) ∧
  (∀ (s t : State) (v : VoiceIdx), exec (.disable v) s = .next t → exec (.disable v) t = .next t) ∧
  (∀ (s t : State) (v : VoiceIdx) (freq : Freq) (vol durm1 rel : BitVec 8),
    exec (.load v freq vol durm1 rel) s = .next t →
    exec (.load v freq vol durm1 rel) t =
      .next (t.updateVoice v.toNat fun x => { x with osc := evm.oscLoad x.osc freq }))

/-- R141: DISABLE then LOAD on the same voice is the same as LOAD alone. -/
def Obligations.DisableThenLoadIsLoad : Prop :=
  ∀ (s : State) (v : VoiceIdx) (freq : Freq) (vol durm1 rel : BitVec 8),
    v.toNat < s.nv →
    execAll [.disable v, .load v freq vol durm1 rel] s = exec (.load v freq vol durm1 rel) s

/-- R60 (c): two operations on different voices commute; only the record of port activity tells which came last. -/
def Obligations.DifferentVoicesCommute : Prop :=
  ∀ (s : State) (i j : Instr) (a b : Nat), i.voice? = some a → j.voice? = some b → a ≠ b →
    i.wellFormed s.nv = true → j.wellFormed s.nv = true →
    ∃ t u, execAll [i, j] s = .next t ∧ execAll [j, i] s = .next u ∧ t.still = u.still

/-! ### The envelope and one tick of one voice -/

/-- R107: `VoiceStep`, register by register, on every instance, for a voice that meets the invariants of R27. -/
def Obligations.VoiceStepFollowsItsRule : Prop :=
  ∀ (Osc : Type) (cfg : Cfg Osc) (v : Voice Osc), cfg.Valid → VoiceInv cfg v →
    (v.phase = .done → (voiceStep cfg v).voice = v ∧ (voiceStep cfg v).contrib = 0 ∧
      (voiceStep cfg v).done = true) ∧
    (v.phase ≠ .done →
      let g := cfg.envGain v.eu.toNat v.rel.toNat (v.durm1.toNat + 1)
      let raw : Int := if v.freq = 0 then 0 else (cfg.oscStep v.osc).2.toInt
      let v' := (voiceStep cfg v).voice
      (voiceStep cfg v).contrib = (raw * (v.vol.toNat : Int) * (g : Int)) / 32768 ∧
      v'.freq = v.freq ∧ v'.vol = v.vol ∧ v'.durm1 = v.durm1 ∧ v'.rel = v.rel ∧
      v'.osc = (if v.freq = 0 then v.osc else (cfg.oscStep v.osc).1) ∧
      (v.es = cfg.timeUnit - 1 → v'.es = 0 ∧ v'.eu.toNat = v.eu.toNat + 1 ∧
        v'.phase = phaseAt cfg (v.eu.toNat + 1) v.rel.toNat (v.durm1.toNat + 1)) ∧
      (v.es ≠ cfg.timeUnit - 1 → v'.es = v.es + 1 ∧ v'.eu = v.eu ∧ v'.phase = v.phase) ∧
      ((voiceStep cfg v).done = true ↔ v'.phase = .done))

/-- R108: a pause advances its counters and phase exactly as any other frame, contributes 0 and leaves the oscillator
alone; a frame with volume 0 and a frequency is silent too but does step the oscillator. -/
def Obligations.PauseAdvancesSilently : Prop :=
  ∀ (Osc : Type) (cfg : Cfg Osc) (v : Voice Osc) (f : Freq), v.phase ≠ .done →
    (v.freq = 0 →
      (voiceStep cfg v).contrib = 0 ∧ (voiceStep cfg v).voice.osc = v.osc ∧ (voiceStep cfg v).raw = none ∧
      (voiceStep cfg v).voice.phase = (voiceStep cfg { v with freq := f }).voice.phase ∧
      (voiceStep cfg v).voice.eu = (voiceStep cfg { v with freq := f }).voice.eu ∧
      (voiceStep cfg v).voice.es = (voiceStep cfg { v with freq := f }).voice.es ∧
      (voiceStep cfg v).done = (voiceStep cfg { v with freq := f }).done) ∧
    (v.freq ≠ 0 → v.vol = 0 →
      (voiceStep cfg v).contrib = 0 ∧ (voiceStep cfg v).voice.osc = (cfg.oscStep v.osc).1)

/-- R110, R25: the lifetime of a loaded voice, tick by tick: position, ticks consumed, budget left, phase and gain of
tick `t`, the registers after it, DONE at exactly `dur * TIME_UNIT`, and the first tick in RELEASE. -/
def Obligations.LoadedVoiceLifetime : Prop :=
  ∀ (Osc : Type) (cfg : Cfg Osc) (freq : Freq) (vol durm1 rel : BitVec 8) (old : Voice Osc) (t : Nat), cfg.Valid →
    1 ≤ t → t ≤ (durm1.toNat + 1) * cfg.timeUnit →
    let before := voiceTicks cfg (t - 1) (loadVoice cfg freq vol durm1 rel old)
    let after := voiceTicks cfg t (loadVoice cfg freq vol durm1 rel old)
    before.eu.toNat = (t - 1) / cfg.timeUnit ∧ before.es = (t - 1) % cfg.timeUnit ∧
    before.phase = phaseAt cfg ((t - 1) / cfg.timeUnit) rel.toNat (durm1.toNat + 1) ∧
    before.consumed cfg = t - 1 ∧ before.remain = durm1.toNat + 1 - (t - 1) / cfg.timeUnit ∧
    (voiceStep cfg before).contrib = contribution (rawValue (voiceStep cfg before).raw) vol.toNat
      (cfg.envGain ((t - 1) / cfg.timeUnit) rel.toNat (durm1.toNat + 1)) ∧
    after.eu.toNat = t / cfg.timeUnit ∧ after.es = t % cfg.timeUnit ∧
    ((voiceStep cfg before).done = true ↔ t = (durm1.toNat + 1) * cfg.timeUnit) ∧
    (rel.toNat < durm1.toNat + 1 → (before.phase = .release ↔ rel.toNat * cfg.timeUnit + 1 ≤ t))

/-- R101: when each phase holds, the end of the budget before the release point before the rest; phases come only in
the order ATTACK, DECAY, SUSTAIN, RELEASE, DONE as the elapsed units grow. -/
def Obligations.PhaseAtFollowsItsRule : Prop :=
  ∀ (Osc : Type) (cfg : Cfg Osc) (u rel dur : Nat),
    (phaseAt cfg u rel dur = .done ↔ dur ≤ u) ∧
    (phaseAt cfg u rel dur = .release ↔ u < dur ∧ rel ≤ u) ∧
    (phaseAt cfg u rel dur = .attack ↔ u < dur ∧ u < rel ∧ u < cfg.attackUnits) ∧
    (phaseAt cfg u rel dur = .decay ↔
      u < dur ∧ u < rel ∧ cfg.attackUnits ≤ u ∧ u < cfg.attackUnits + cfg.decayUnits) ∧
    (phaseAt cfg u rel dur = .sustain ↔ u < dur ∧ u < rel ∧ cfg.attackUnits + cfg.decayUnits ≤ u) ∧
    ∀ u', u ≤ u' → (phaseAt cfg u rel dur).code.toNat ≤ (phaseAt cfg u' rel dur).code.toNat

/-- R101: one tick never takes a voice back to an earlier phase. -/
def Obligations.VoiceStepNeverGoesBack : Prop :=
  ∀ (Osc : Type) (cfg : Cfg Osc) (v : Voice Osc), cfg.Valid → VoiceInv cfg v →
    v.phase.code.toNat ≤ (voiceStep cfg v).voice.phase.code.toNat

/-- R114: the transitions of `phase[j]` under every operation and under reset, complete. -/
def Obligations.PhaseTransitionTable : Prop :=
  (∀ (i : Instr) (s t : State) (j : Nat) (v v' : Voice OscState), Inv evm s → exec i s = .next t →
    s.voice? j = some v → t.voice? j = some v' →
    match i with
    | .load k _ _ _ rel =>
      v'.phase =
        if k.toNat ≠ j then v.phase
        else if rel = 0 then .release
        else if 1 ≤ evm.attackUnits then .attack
        else if 1 ≤ evm.decayUnits then .decay
        else .sustain
    | .enable _ => v'.phase = v.phase
    | .disable _ => v'.phase = v.phase
    | .tick =>
      v'.phase =
        if s.enabled j = false ∨ v.phase = .done ∨ v.es ≠ evm.timeUnit - 1 then v.phase
        else if v.dur ≤ v.eu.toNat + 1 then .done
        else if v.rel.toNat ≤ v.eu.toNat + 1 then .release
        else if v.phase = .attack ∧ v.eu.toNat + 1 < evm.attackUnits then .attack
        else if (v.phase = .attack ∨ v.phase = .decay) ∧
          v.eu.toNat + 1 < evm.attackUnits + evm.decayUnits then .decay
        else .sustain) ∧
  (∀ (s t : State) (j : Nat) (v' : Voice OscState) (op : Option OpWord) (tick : Bool) (rest : List Requests),
    step (s.withRequests ({ rst := true, op := op, tick := tick } :: rest)) = .next t →
    t.voice? j = some v' → v'.phase = .done)

/-- R102 (P1), R103: the reference gain stays in `0..GAIN_ONE` and is 0 from `dur` on. -/
def Obligations.ReferenceGainInRange : Prop :=
  ∀ A D S u rel dur : Nat, S ≤ 256 →
    envGainRef A D S u rel dur ≤ 256 ∧ (dur ≤ u → envGainRef A D S u rel dur = 0)

/-- R103: the gain of an attack, a decay, a sustain and a release unit; the last attack unit is at full level and the
last decay unit at the sustain level. -/
def Obligations.ReferenceGainFollowsItsRule : Prop :=
  ∀ A D S u rel dur : Nat, S ≤ 256 → u < dur →
    (u < rel → u < A → envGainRef A D S u rel dur = 256 * (u + 1) / A) ∧
    (u < rel → A ≤ u → u < A + D → envGainRef A D S u rel dur = 256 - (256 - S) * (u - A + 1) / D) ∧
    (u < rel → A + D ≤ u → envGainRef A D S u rel dur = S) ∧
    (rel ≤ u → envGainRef A D S u rel dur =
      (if 1 ≤ rel then gainPre A D S (rel - 1) else gainPre A D S 0) * (dur - u) / (dur - rel + 1)) ∧
    (u < rel → u + 1 = A → envGainRef A D S u rel dur = 256) ∧
    (u < rel → 1 ≤ D → u + 1 = A + D → envGainRef A D S u rel dur = S)

/-- R103: in RELEASE the gain never rises, and its first unit is not above the level last reached. -/
def Obligations.ReleaseGainFalls : Prop :=
  ∀ A D S u u' rel dur : Nat,
    (rel ≤ u → u ≤ u' → envGainRef A D S u' rel dur ≤ envGainRef A D S u rel dur) ∧
    (1 ≤ rel → rel < dur → envGainRef A D S rel rel dur ≤ envGainRef A D S (rel - 1) rel dur)

/-- R106: a contribution lies between its raw sample and 0, so it fits in a sample; the extremes are reached. -/
def Obligations.ContributionFitsSample : Prop :=
  (∀ (raw : Int) (vol g : Nat), -128 ≤ raw → raw ≤ 127 → vol ≤ 128 → g ≤ 256 →
    (0 ≤ raw → 0 ≤ contribution raw vol g ∧ contribution raw vol g ≤ raw) ∧
    (raw < 0 → raw ≤ contribution raw vol g ∧ contribution raw vol g ≤ 0) ∧
    -128 ≤ contribution raw vol g ∧ contribution raw vol g ≤ 127) ∧
  contribution 127 128 256 = 127 ∧ contribution (-128) 128 256 = -128

/-! ### TICK -/

/-- R130, result and frame: TICK completes in every state; each enabled voice takes one `VoiceStep`, each other stays;
the bits of the voices that report DONE are cleared and no other; `out` is the saturated sum; `clipcnt` counts. -/
def Obligations.TickResult : Prop :=
  ∀ s : State, ∃ t, exec .tick s = .next t ∧
    (∀ j v, s.voice? j = some v →
      t.voice? j = some (if s.enabled j then (voiceStep evm v).voice else v)) ∧
    (∀ j, t.enabled j = (s.enabled j && !retires evm s j)) ∧
    t.out = BitVec.ofInt 8 (clamp (mixSum evm s) (-128) 127) ∧
    t.clipcnt = (if clamp (mixSum evm s) (-128) 127 ≠ mixSum evm s then s.clipcnt + 1 else s.clipcnt) ∧
    t.nv = s.nv ∧ t.requests = s.requests ∧ t.sampleValid = true ∧
    t.activity.oscCalls = (descending s.nv).flatMap (oscCallsIn evm s)

/-- R134, on every instance: the sample stored, read as signed, is the sum where it is in range and the nearer limit
where it is not; it never wraps. TICK completes with the state these clauses speak of. -/
def Obligations.SaturationNeverWraps : Prop :=
  ∀ (Osc : Type) (cfg : Cfg Osc) (s : State.Of Osc), execOn cfg .tick s = .next (ticked cfg s) ∧
    (127 < mixSum cfg s → (ticked cfg s).out.toInt = 127) ∧
    (mixSum cfg s < -128 → (ticked cfg s).out.toInt = -128) ∧
    (-128 ≤ mixSum cfg s → mixSum cfg s ≤ 127 → (ticked cfg s).out.toInt = mixSum cfg s)

/-- R135, on every instance: `clipcnt` goes up by exactly 1 modulo 65536 in a TICK whose sum is outside the range and
stays in any other. -/
def Obligations.ClipCounterCountsClips : Prop :=
  ∀ (Osc : Type) (cfg : Cfg Osc) (s : State.Of Osc), execOn cfg .tick s = .next (ticked cfg s) ∧
    (mixSum cfg s < -128 ∨ 127 < mixSum cfg s →
      (ticked cfg s).clipcnt.toNat = (s.clipcnt.toNat + 1) % 65536) ∧
    (-128 ≤ mixSum cfg s → mixSum cfg s ≤ 127 → (ticked cfg s).clipcnt = s.clipcnt)

/-- R131: the loop visits every index below `NV` once, from the highest down; the calls on the capability port come in
that order; and any other order gives the same registers and the same sum. -/
def Obligations.VisitOrderFixedButImmaterial : Prop :=
  ∀ (Osc : Type) (cfg : Cfg Osc) (s : State.Of Osc),
    (descending s.nv).Pairwise (fun a b => b < a) ∧ (∀ i, i ∈ descending s.nv ↔ i < s.nv) ∧
    (mixed cfg s).calls = (descending s.nv).flatMap (oscCallsIn cfg s) ∧
    ∀ l : List Nat, l.Perm (descending s.nv) →
      (mixAlong cfg l (mixStart s)).voices = (mixed cfg s).voices ∧
      (mixAlong cfg l (mixStart s)).mask = (mixed cfg s).mask ∧
      (mixAlong cfg l (mixStart s)).acc = (mixed cfg s).acc

/-- R35: whatever part of the loop is done, the accumulator lies in `16*SMIN..16*SMAX`, inside 12 signed bits. -/
def Obligations.AccumulatorNeverOverflows : Prop :=
  ∀ (Osc : Type) (cfg : Cfg Osc) (s : State.Of Osc) (k : Nat), cfg.Valid → Inv cfg s →
    -2048 ≤ (mixAlong cfg ((descending s.nv).take k) (mixStart s)).acc ∧
    (mixAlong cfg ((descending s.nv).take k) (mixStart s)).acc ≤ 2032

/-- R138, on every instance: `k` enabled voices that all contribute `SMAX` (or all `SMIN`) sum to `k` times that and
give exactly that as the sample; with `k = 1` nothing is clamped. -/
def Obligations.FullScaleVoicesSaturate : Prop :=
  ∀ (Osc : Type) (cfg : Cfg Osc) (s : State.Of Osc) (k : Nat) (c : Int), execOn cfg .tick s = .next (ticked cfg s) ∧
    (((List.range s.nv).filter s.enabled).length = k → 1 ≤ k → c = 127 ∨ c = -128 →
      (∀ j, j < s.nv → s.enabled j = true → contribIn cfg s j = c) →
      mixSum cfg s = k * c ∧ (ticked cfg s).out.toInt = c ∧
      (k = 1 → (ticked cfg s).clipcnt = s.clipcnt))

/-- R139: a voice that reports DONE in one TICK has its bit clear after it, and the next TICK neither steps nor adds
it. -/
def Obligations.RetiredVoiceNoLongerSummed : Prop :=
  ∀ (s : State) (i : Nat), retires evm s i = true →
    ∃ t u, exec .tick s = .next t ∧ exec .tick t = .next u ∧ t.enabled i = false ∧
      contribIn evm t i = 0 ∧ u.voice? i = t.voice? i ∧ u.enabled i = false

/-- R109: an enabled voice that is DONE contributes 0 to a TICK, is left unchanged and has its bit cleared. -/
def Obligations.EnabledDoneVoiceRetiresSilently : Prop :=
  ∀ (s : State) (i : Nat) (v : Voice OscState), s.voice? i = some v → v.phase = .done → s.enabled i = true →
    voiceStep evm v = { voice := v, contrib := 0, done := true, raw := none } ∧
    contribIn evm s i = 0 ∧
    ∃ t, exec .tick s = .next t ∧ t.voice? i = some v ∧ t.enabled i = false

/-- R111: while a voice is disabled none of its registers change, however many TICKs pass; enabled again it stands
where it stood. -/
def Obligations.DisabledVoiceStandsStill : Prop :=
  ∀ (s : State) (v : VoiceIdx) (n : Nat), v.toNat < s.nv →
    ∃ t u, execAll (.disable v :: List.replicate n .tick) s = .next t ∧
      t.voice? v.toNat = s.voice? v.toNat ∧ t.enabled v.toNat = false ∧
      exec (.enable v) t = .next u ∧ u.voice? v.toNat = s.voice? v.toNat ∧ u.enabled v.toNat = true

/-- R137 (a): a TICK with nothing enabled returns 0, clips nothing and changes no voice. -/
def Obligations.TickWithEmptyMaskIsSilent : Prop :=
  ∀ s : State, s.mask = 0 →
    ∃ t, exec .tick s = .next t ∧ t.voices = s.voices ∧ t.mask = 0 ∧ t.clipcnt = s.clipcnt ∧ t.out = 0 ∧
      t.activity.oscCalls = []

/-- R201: a LOAD right before a TICK is heard in that TICK: its first contribution, with the gain of unit 0. -/
def Obligations.NewNoteHeardInNextTick : Prop :=
  ∀ (s : State) (v : VoiceIdx) (freq : Freq) (vol durm1 rel : BitVec 8) (old : Voice OscState),
    s.voice? v.toNat = some old → vol.toNat ≤ 128 → freq ≠ 0 →
    ∃ t, exec (.load v freq vol durm1 rel) s = .next t ∧
      contribIn evm t v.toNat =
        contribution (evm.oscStep (evm.oscLoad old.osc freq)).2.toInt vol.toNat
          (evm.envGain 0 rel.toNat (durm1.toNat + 1)) ∧
      mixSum evm t = contribIn evm t v.toNat +
        ((List.range s.nv).map fun j => if j = v.toNat then 0 else contribIn evm s j).sum

/-! ### Rules over all operations -/

/-- R142: a mask bit is set only by LOAD or ENABLE of that voice, and cleared only by DISABLE of that voice or by a
TICK in which it retires; reset clears the whole mask. -/
def Obligations.MaskHasTwoKindsOfMutation : Prop :=
  (∀ (s t : State) (op : Option OpWord) (tick : Bool) (rest : List Requests),
    step (s.withRequests ({ rst := true, op := op, tick := tick } :: rest)) = .next t → t.mask = 0) ∧
  ∀ (i : Instr) (s t : State) (j : Nat), exec i s = .next t →
    (s.enabled j = false → t.enabled j = true →
      (∃ v freq vol durm1 rel, i = .load v freq vol durm1 rel ∧ v.toNat = j) ∨
      (∃ v, i = .enable v ∧ v.toNat = j)) ∧
    (s.enabled j = true → t.enabled j = false →
      (∃ v, i = .disable v ∧ v.toNat = j) ∨ (i = .tick ∧ retires evm s j = true))

/-- R24: no operation leaves DONE except LOAD of that voice. -/
def Obligations.OnlyLoadLeavesDone : Prop :=
  ∀ (i : Instr) (s t : State) (j : Nat) (v v' : Voice OscState), exec i s = .next t →
    s.voice? j = some v → t.voice? j = some v' → v.phase = .done → v'.phase ≠ .done →
    ∃ k freq vol durm1 rel, i = .load k freq vol durm1 rel ∧ k.toNat = j

/-- R33, R34, R51: of the operations only TICK writes `out` and `clipcnt`, and only TICK pulses `sample_valid`. -/
def Obligations.OnlyTickWritesSampleAndClipCount : Prop :=
  ∀ (i : Instr) (s t : State), exec i s = .next t →
    (i ≠ .tick → t.out = s.out ∧ t.clipcnt = s.clipcnt) ∧ (t.sampleValid = true ↔ i = .tick)

/-- R33: nothing reads `clipcnt`: with another count every operation ends the same way but for the count. -/
def Obligations.ClipCountInfluencesNothing : Prop :=
  ∀ (i : Instr) (s : State) (c : BitVec 16),
    (∀ t, exec i s = .next t →
      ∃ c', exec i { s with clipcnt := c } = .next { t with clipcnt := c' }) ∧
    (∀ r, exec i s = .refused r → exec i { s with clipcnt := c } = .refused r)

/-- R21: the records of different voices share nothing: two states that agree on voice `j` and its bit agree on them
after the same operation, whatever their other voices hold. -/
def Obligations.VoicesShareNothing : Prop :=
  ∀ (i : Instr) (s s' t t' : State) (j : Nat), s.voice? j = s'.voice? j → s.enabled j = s'.enabled j →
    exec i s = .next t → exec i s' = .next t' →
    t.voice? j = t'.voice? j ∧ t.enabled j = t'.enabled j

/-- R161, R162: an operation is executed exactly when its operands break no contract. -/
def Obligations.ExecutedExactlyWhenLegal : Prop :=
  ∀ (i : Instr) (s : State), (∃ t, exec i s = .next t) ↔ i.wellFormed s.nv = true

/-- R20, R193: no step changes the number of voices. -/
def Obligations.StepKeepsVoiceCount : Prop :=
  ∀ s t : State, step s = .next t → t.nv = s.nv

/-- R27, R32, R7: the reset state meets the invariants. -/
def Obligations.ResetMeetsInvariants : Prop := Inv evm State.reset

/-- R27, R32: every step keeps the invariants (I1) to (I6) of every voice, the number of voices in 1..16, and the mask
without bits from `NV` up. -/
def Obligations.StepKeepsInvariants : Prop :=
  ∀ s t : State, Inv evm s → step s = .next t → Inv evm t

/-- R27: every state reached from reset, whatever the host presents, meets the invariants. -/
def Obligations.EveryRunFromResetMeetsInvariants : Prop :=
  ∀ (k : Nat) (rs : List Requests) (t : State),
    Sys2Proof.core.run k (State.reset.withRequests rs) = .next t → Inv evm t

/-- R62, R160: a host that keeps its duties is never refused, however long the run. -/
def Obligations.DutifulHostIsNeverRefused : Prop :=
  ∀ s : State, s.hostDutiful → Safe s

/-- R51, R24: what the output ports show between events. -/
def Obligations.PortsShowRegisters : Prop :=
  ∀ (s : State) (i : Nat) (v : Voice OscState), s.voice? i = some v →
    s.sampleOut = s.out ∧ s.clipOut = s.clipcnt ∧ s.maskOut.getLsbD i = s.enabled i ∧
    s.doneOut i = some (decide (v.phase = .done)) ∧
    s.phaseOut i = some (match v.phase with
      | .attack => 0 | .decay => 1 | .sustain => 2 | .release => 3 | .done => 4)

/-! ### Every instance (R7, R8), over any type of oscillator states (R26) -/

/-- R8, R7: the machine behind the host's interface is the instance `evm` with sixteen voices (log 2). -/
def Obligations.MachineIsAnInstance : Prop :=
  (∀ (i : Instr) (s : State), exec i s = execOn evm i s) ∧ (∀ s : State, step s = stepOn evm s) ∧
  State.reset = State.Of.afterReset 16 evm.oscReset ∧ evm.Valid

/-- R112, on every instance: LOAD completes exactly when the voice exists and the volume is legal, with the registers
and the frame of the rule. -/
def Obligations.LoadResultOnEveryInstance : Prop :=
  ∀ (Osc : Type) (cfg : Cfg Osc) (s : State.Of Osc) (v : VoiceIdx) (freq : Freq) (vol durm1 rel : BitVec 8),
    (∀ old : Voice Osc, s.voice? v.toNat = some old → vol.toNat ≤ 128 →
      ∃ t, execOn cfg (.load v freq vol durm1 rel) s = .next t ∧
        t.voice? v.toNat = some
          { freq := freq, vol := vol, durm1 := durm1, rel := rel,
            phase := phaseAt cfg 0 rel.toNat (durm1.toNat + 1), eu := 0, es := 0,
            osc := cfg.oscLoad old.osc freq } ∧
        t.enabled v.toNat = true ∧
        (∀ j, j ≠ v.toNat → t.voice? j = s.voice? j ∧ t.enabled j = s.enabled j) ∧
        t.nv = s.nv ∧ t.clipcnt = s.clipcnt ∧ t.out = s.out ∧ t.requests = s.requests) ∧
    (s.nv ≤ v.toNat → execOn cfg (.load v freq vol durm1 rel) s = .refused .voiceOutOfRange) ∧
    (v.toNat < s.nv → 128 < vol.toNat → execOn cfg (.load v freq vol durm1 rel) s = .refused .volumeOutOfRange)

/-- R130, on every instance: TICK completes, with the registers and the frame of the rule. -/
def Obligations.TickResultOnEveryInstance : Prop :=
  ∀ (Osc : Type) (cfg : Cfg Osc) (s : State.Of Osc), ∃ t, execOn cfg .tick s = .next t ∧
    (∀ j v, s.voice? j = some v →
      t.voice? j = some (if s.enabled j then (voiceStep cfg v).voice else v)) ∧
    (∀ j, t.enabled j = (s.enabled j && !retires cfg s j)) ∧
    t.out = BitVec.ofInt 8 (clamp (mixSum cfg s) (-128) 127) ∧
    t.clipcnt = (if clamp (mixSum cfg s) (-128) 127 ≠ mixSum cfg s then s.clipcnt + 1 else s.clipcnt) ∧
    t.nv = s.nv ∧ t.requests = s.requests ∧ t.sampleValid = true

/-- R27, R32, on every instance that keeps the constraints of R7: the reset state meets the invariants for every number
of voices allowed, and every step keeps them. -/
def Obligations.EveryInstanceKeepsInvariants : Prop :=
  ∀ (Osc : Type) (cfg : Cfg Osc), cfg.Valid →
    (∀ nv, 1 ≤ nv → nv ≤ 16 → Inv cfg (State.Of.afterReset nv cfg.oscReset)) ∧
    ∀ s t : State.Of Osc, Inv cfg s → stepOn cfg s = .next t → Inv cfg t

/-- R26, R104: EVM never inspects an oscillator state. Where `f` carries the oscillator of one instance to that of
another, it carries the reset state and every step of the one to that of the other, stops included, and what can be
observed is the same. -/
def Obligations.OscillatorStateNeverInspected : Prop :=
  ∀ (A B : Type) (f : A → B) (a : Cfg A) (b : Cfg B), Cfg.Renames f a b →
    (∀ nv, (State.Of.afterReset nv a.oscReset).mapOsc f = State.Of.afterReset nv b.oscReset) ∧
    (∀ s : State.Of A, stepOn b (s.mapOsc f) = renameNext f (stepOn a s)) ∧
    ∀ s : State.Of A, (s.mapOsc f).observe = s.observe
end

