-- ==== Sys2Proof/Laws/State.lean ====
section
/-! SUPPORT. One lemma per field per update of State, each true by unfolding, so that no later proof unfolds a record
update. -/

namespace Sys2Proof.Machine

variable {Osc : Type}

variable (s : State.Of Osc) (i : Nat) (f : Voice Osc → Voice Osc) (a : Activity) (rs : List Requests) (cfg : Cfg Osc)

@[simp] theorem State.Of.updateVoice_voices : (s.updateVoice i f).voices = s.voices.modify i f := rfl
@[simp] theorem State.Of.updateVoice_mask : (s.updateVoice i f).mask = s.mask := rfl
@[simp] theorem State.Of.updateVoice_clipcnt : (s.updateVoice i f).clipcnt = s.clipcnt := rfl
@[simp] theorem State.Of.updateVoice_out : (s.updateVoice i f).out = s.out := rfl
@[simp] theorem State.Of.updateVoice_activity : (s.updateVoice i f).activity = s.activity := rfl
@[simp] theorem State.Of.updateVoice_requests : (s.updateVoice i f).requests = s.requests := rfl

@[simp] theorem State.Of.setMask_voices : (s.setMask i).voices = s.voices := rfl
@[simp] theorem State.Of.setMask_mask : (s.setMask i).mask = maskSet s.mask i := rfl
@[simp] theorem State.Of.setMask_clipcnt : (s.setMask i).clipcnt = s.clipcnt := rfl
@[simp] theorem State.Of.setMask_out : (s.setMask i).out = s.out := rfl
@[simp] theorem State.Of.setMask_activity : (s.setMask i).activity = s.activity := rfl
@[simp] theorem State.Of.setMask_requests : (s.setMask i).requests = s.requests := rfl

@[simp] theorem State.Of.clearMask_voices : (s.clearMask i).voices = s.voices := rfl
@[simp] theorem State.Of.clearMask_mask : (s.clearMask i).mask = maskClear s.mask i := rfl
@[simp] theorem State.Of.clearMask_clipcnt : (s.clearMask i).clipcnt = s.clipcnt := rfl
@[simp] theorem State.Of.clearMask_out : (s.clearMask i).out = s.out := rfl
@[simp] theorem State.Of.clearMask_activity : (s.clearMask i).activity = s.activity := rfl
@[simp] theorem State.Of.clearMask_requests : (s.clearMask i).requests = s.requests := rfl

@[simp] theorem State.Of.withActivity_voices : (s.withActivity a).voices = s.voices := rfl
@[simp] theorem State.Of.withActivity_mask : (s.withActivity a).mask = s.mask := rfl
@[simp] theorem State.Of.withActivity_clipcnt : (s.withActivity a).clipcnt = s.clipcnt := rfl
@[simp] theorem State.Of.withActivity_out : (s.withActivity a).out = s.out := rfl
@[simp] theorem State.Of.withActivity_activity : (s.withActivity a).activity = a := rfl
@[simp] theorem State.Of.withActivity_requests : (s.withActivity a).requests = s.requests := rfl

@[simp] theorem State.Of.withRequests_voices : (s.withRequests rs).voices = s.voices := rfl
@[simp] theorem State.Of.withRequests_mask : (s.withRequests rs).mask = s.mask := rfl
@[simp] theorem State.Of.withRequests_clipcnt : (s.withRequests rs).clipcnt = s.clipcnt := rfl
@[simp] theorem State.Of.withRequests_out : (s.withRequests rs).out = s.out := rfl
@[simp] theorem State.Of.withRequests_activity : (s.withRequests rs).activity = s.activity := rfl
@[simp] theorem State.Of.withRequests_requests : (s.withRequests rs).requests = rs := rfl

@[simp] theorem resetEvent_voices :
    (resetEvent cfg s).voices = s.voices.map fun _ => Voice.atReset cfg.oscReset := rfl
@[simp] theorem resetEvent_mask : (resetEvent cfg s).mask = 0 := rfl
@[simp] theorem resetEvent_clipcnt : (resetEvent cfg s).clipcnt = 0 := rfl
@[simp] theorem resetEvent_out : (resetEvent cfg s).out = 0 := rfl
@[simp] theorem resetEvent_activity : (resetEvent cfg s).activity = .quiet := rfl
@[simp] theorem resetEvent_requests : (resetEvent cfg s).requests = s.requests := rfl

@[simp] theorem State.Of.afterReset_voices (n : Nat) (o : Osc) :
    (State.Of.afterReset n o).voices = List.replicate n (Voice.atReset o) := rfl
@[simp] theorem State.Of.afterReset_mask (n : Nat) (o : Osc) : (State.Of.afterReset n o).mask = 0 := rfl
@[simp] theorem State.Of.afterReset_clipcnt (n : Nat) (o : Osc) : (State.Of.afterReset n o).clipcnt = 0 := rfl
@[simp] theorem State.Of.afterReset_out (n : Nat) (o : Osc) : (State.Of.afterReset n o).out = 0 := rfl
@[simp] theorem State.Of.afterReset_activity (n : Nat) (o : Osc) : (State.Of.afterReset n o).activity = .quiet := rfl
@[simp] theorem State.Of.afterReset_requests (n : Nat) (o : Osc) : (State.Of.afterReset n o).requests = [] := rfl

/-! ### The number of voices under each update (R20, R193) -/

@[simp] theorem State.Of.updateVoice_nv : (s.updateVoice i f).nv = s.nv := by simp [State.Of.nv]
@[simp] theorem State.Of.setMask_nv : (s.setMask i).nv = s.nv := rfl
@[simp] theorem State.Of.clearMask_nv : (s.clearMask i).nv = s.nv := rfl
@[simp] theorem State.Of.withActivity_nv : (s.withActivity a).nv = s.nv := rfl
@[simp] theorem State.Of.withRequests_nv : (s.withRequests rs).nv = s.nv := rfl
@[simp] theorem State.Of.afterReset_nv (n : Nat) (o : Osc) : (State.Of.afterReset n o).nv = n := by simp [State.Of.nv]
@[simp] theorem resetEvent_nv : (resetEvent cfg s).nv = s.nv := by simp [State.Of.nv]

/-! ### Voice records and mask bits read back -/

@[simp] theorem State.Of.setMask_voice? (j : Nat) : (s.setMask i).voice? j = s.voice? j := rfl
@[simp] theorem State.Of.clearMask_voice? (j : Nat) : (s.clearMask i).voice? j = s.voice? j := rfl
@[simp] theorem State.Of.withActivity_voice? (j : Nat) : (s.withActivity a).voice? j = s.voice? j := rfl
@[simp] theorem State.Of.withRequests_voice? (j : Nat) : (s.withRequests rs).voice? j = s.voice? j := rfl
@[simp] theorem State.Of.updateVoice_enabled (j : Nat) : (s.updateVoice i f).enabled j = s.enabled j := rfl
@[simp] theorem State.Of.withActivity_enabled (j : Nat) : (s.withActivity a).enabled j = s.enabled j := rfl
@[simp] theorem State.Of.withRequests_enabled (j : Nat) : (s.withRequests rs).enabled j = s.enabled j := rfl

/-- Reading a voice after rewriting one: that one is rewritten, every other is as before (R21). -/
theorem State.Of.updateVoice_voice? (j : Nat) :
    (s.updateVoice i f).voice? j = if i = j then (s.voice? j).map f else s.voice? j := by
  simp only [State.Of.voice?, State.Of.updateVoice_voices, List.getElem?_modify]
  split <;> cases s.voices[j]? <;> rfl

/-- A set bit reads 1, every other bit is as before (R32). -/
theorem getLsbD_maskSet (m : BitVec 16) {i : Nat} (hi : i < 16) (j : Nat) :
    (maskSet m i).getLsbD j = (m.getLsbD j || decide (i = j)) := by
  unfold maskSet
  by_cases hj : j < 16
  · by_cases h : i = j
    · subst h; simp [hi]
    · by_cases h' : j < i
      · simp [h, h', hj]
      · have : j - i ≠ 0 := by omega
        simp [h, hj, this]
  · have : i ≠ j := by omega
    simp [this, BitVec.getLsbD_of_ge _ _ (by omega : 16 ≤ j)]

/-- A cleared bit reads 0, every other bit is as before (R32). -/
theorem getLsbD_maskClear (m : BitVec 16) (i j : Nat) :
    (maskClear m i).getLsbD j = (m.getLsbD j && decide (i ≠ j)) := by
  unfold maskClear
  by_cases hj : j < 16
  · by_cases h : i = j
    · subst h; simp [hj]
    · by_cases h' : j < i
      · simp [h, h', hj]
      · have : j - i ≠ 0 := by omega
        simp [h, hj, this]
  · simp [BitVec.getLsbD_of_ge _ _ (by omega : 16 ≤ j)]

end Sys2Proof.Machine
end

