-- ==== Sys2Proof/Laws/VoiceEngine.lean ====
section
/-! SUPPORT. What the voice engine's operations can do, said once each. -/

namespace Sys2Proof.Machine

variable {Osc : Type}

variable (cfg : Cfg Osc)

/-- `TIME_UNIT` fits in `ES_W` bits, so `es` never loses a bit while (I1) holds (R21). -/
theorem timeUnit_le_pow_esWidth {t : Nat} (ht : 1 ≤ t) : t ≤ 2 ^ esWidth t := by
  have := Nat.lt_log2_self (n := t - 1)
  unfold esWidth
  omega

/-- The counters after a tick that completes no time unit (R107). -/
theorem advance_es_of_ne {v : Voice Osc} (h : v.es + 1 < cfg.timeUnit) :
    advance cfg v = { v with es := v.es + 1 } := by
  have hne : v.es ≠ cfg.timeUnit - 1 := by omega
  have hle := timeUnit_le_pow_esWidth (t := cfg.timeUnit) (by omega)
  simp only [advance, if_neg hne, Nat.mod_eq_of_lt (by omega : v.es + 1 < 2 ^ esWidth cfg.timeUnit)]

/-- The counters and the phase after a tick that completes a time unit (R107). -/
theorem advance_boundary {v : Voice Osc} (h : v.es = cfg.timeUnit - 1) :
    advance cfg v =
      { v with es := 0, eu := v.eu + 1, phase := phaseAt cfg (v.eu + 1).toNat v.rel.toNat v.dur } := by
  simp only [advance, if_pos h]

/-- An advance writes `es`, `eu` and `phase` only. -/
theorem advance_frame (v : Voice Osc) :
    (advance cfg v).freq = v.freq ∧ (advance cfg v).vol = v.vol ∧ (advance cfg v).durm1 = v.durm1 ∧
      (advance cfg v).rel = v.rel ∧ (advance cfg v).osc = v.osc := by
  unfold advance
  split <;> simp

/-- A DONE voice answers `(0, true)` and changes nothing (R109). -/
theorem voiceStep_of_done {v : Voice Osc} (h : v.phase = .done) :
    voiceStep cfg v = { voice := v, contrib := 0, done := true, raw := none } := by
  simp only [voiceStep, if_pos h]

/-- A voice that is not DONE: oscillator, contribution from before the advance, DONE test after it (R107). -/
theorem voiceStep_of_live {v : Voice Osc} (h : v.phase ≠ .done) :
    voiceStep cfg v =
      { voice := advance cfg { v with osc := (oscTick cfg v).1 }
        contrib := voiceContrib cfg v
        done := (advance cfg { v with osc := (oscTick cfg v).1 }).isDone
        raw := (oscTick cfg v).2 } := by
  simp only [voiceStep, if_neg h]

/-- A step never touches the frame registers (R107). -/
theorem voiceStep_frame (v : Voice Osc) :
    (voiceStep cfg v).voice.freq = v.freq ∧ (voiceStep cfg v).voice.vol = v.vol ∧
      (voiceStep cfg v).voice.durm1 = v.durm1 ∧ (voiceStep cfg v).voice.rel = v.rel := by
  by_cases h : v.phase = .done
  · simp [voiceStep_of_done cfg h]
  · have := advance_frame cfg { v with osc := (oscTick cfg v).1 }
    simp [voiceStep_of_live cfg h, this]

/-- LOAD refuses a voice the instance lacks, then a volume beyond the range, and otherwise answers the loaded state
(R112). -/
theorem load_cases (v : VoiceIdx) (freq : Freq) (vol durm1 rel : BitVec 8) (s : State.Of Osc) :
    (s.nv ≤ v.toNat ∧ load cfg v freq vol durm1 rel s = .refused .voiceOutOfRange) ∨
    (v.toNat < s.nv ∧ volMax < vol.toNat ∧ load cfg v freq vol durm1 rel s = .refused .volumeOutOfRange) ∨
    (v.toNat < s.nv ∧ vol.toNat ≤ volMax ∧
      load cfg v freq vol durm1 rel s = .next (loaded cfg v freq vol durm1 rel s)) := by
  by_cases h : v.toNat < s.nv
  · by_cases h' : vol.toNat ≤ volMax
    · exact .inr (.inr ⟨h, h', by simp [load, voiceLegal, volLegal, h, h']⟩)
    · exact .inr (.inl ⟨h, by omega, by simp [load, voiceLegal, volLegal, h, h']⟩)
  · exact .inl ⟨by omega, by simp [load, voiceLegal, h]⟩

@[simp] theorem loaded_nv (v : VoiceIdx) (freq : Freq) (vol durm1 rel : BitVec 8) (s : State.Of Osc) :
    (loaded cfg v freq vol durm1 rel s).nv = s.nv := by simp [loaded]

@[simp] theorem loaded_mask (v : VoiceIdx) (freq : Freq) (vol durm1 rel : BitVec 8) (s : State.Of Osc) :
    (loaded cfg v freq vol durm1 rel s).mask = maskSet s.mask v.toNat := rfl

@[simp] theorem loaded_clipcnt (v : VoiceIdx) (freq : Freq) (vol durm1 rel : BitVec 8) (s : State.Of Osc) :
    (loaded cfg v freq vol durm1 rel s).clipcnt = s.clipcnt := rfl

@[simp] theorem loaded_out (v : VoiceIdx) (freq : Freq) (vol durm1 rel : BitVec 8) (s : State.Of Osc) :
    (loaded cfg v freq vol durm1 rel s).out = s.out := rfl

@[simp] theorem loaded_requests (v : VoiceIdx) (freq : Freq) (vol durm1 rel : BitVec 8) (s : State.Of Osc) :
    (loaded cfg v freq vol durm1 rel s).requests = s.requests := rfl

theorem loaded_voice? (v : VoiceIdx) (freq : Freq) (vol durm1 rel : BitVec 8) (s : State.Of Osc) (j : Nat) :
    (loaded cfg v freq vol durm1 rel s).voice? j =
      if v.toNat = j then (s.voice? j).map (loadVoice cfg freq vol durm1 rel) else s.voice? j := by
  simp only [loaded, State.Of.withActivity_voice?, State.Of.setMask_voice?, State.Of.updateVoice_voice?]

end Sys2Proof.Machine
end

