-- ==== Sys2Proof/Laws/Mixer.lean ====
section
/-! SUPPORT. What the mixer's loop can do, said once for any order of visits without repeats (R130 to R133). -/

namespace Sys2Proof.Machine

variable {Osc : Type}

variable (cfg : Cfg Osc)

/-- What a visit of voice `i` would answer: the step of an enabled voice, nothing otherwise. -/
def Mix.tickOf (m : Mix Osc) (i : Nat) : Option (VoiceTick Osc) :=
  if m.mask.getLsbD i then (m.voices[i]?).map (voiceStep cfg) else none

/-- A visit either finds no enabled voice and changes nothing, or applies that voice's step (R130). -/
theorem mixVoice_cases (m : Mix Osc) (i : Nat) :
    (m.tickOf cfg i = none ∧ mixVoice cfg m i = m) ∨
    (∃ t, m.tickOf cfg i = some t ∧ i < m.voices.length ∧ m.mask.getLsbD i = true ∧
      mixVoice cfg m i =
        { voices := m.voices.set i t.voice
          mask := if t.done then maskClear m.mask i else m.mask
          acc := m.acc + t.contrib
          calls := m.calls ++ stepCall i t.raw }) := by
  unfold Mix.tickOf mixVoice
  by_cases hb : m.mask.getLsbD i = true
  · simp only [hb, if_true]
    cases hv : m.voices[i]? with
    | none => simp
    | some v =>
      obtain ⟨hlt, -⟩ := List.getElem?_eq_some_iff.1 hv
      exact .inr ⟨voiceStep cfg v, by simp, hlt, trivial, rfl⟩
  · simp [hb]

@[simp] theorem mixVoice_length (m : Mix Osc) (i : Nat) :
    (mixVoice cfg m i).voices.length = m.voices.length := by
  obtain ⟨-, h⟩ | ⟨t, -, -, -, h⟩ := mixVoice_cases cfg m i <;> simp [h]

/-- A visit of voice `i` leaves what a visit of another voice would answer as it was (R21). -/
theorem mixVoice_tickOf_ne (m : Mix Osc) {i j : Nat} (hij : i ≠ j) :
    (mixVoice cfg m i).tickOf cfg j = m.tickOf cfg j := by
  obtain ⟨-, h⟩ | ⟨t, -, -, -, h⟩ := mixVoice_cases cfg m i
  · rw [h]
  · simp only [h, Mix.tickOf, List.getElem?_set_ne hij]
    split <;> simp [getLsbD_maskClear, hij]

/-- The registers of voice `j` after a visit of voice `i`. -/
theorem mixVoice_voices (m : Mix Osc) (i j : Nat) :
    (mixVoice cfg m i).voices[j]? =
      if i = j then ((m.tickOf cfg j).map VoiceTick.voice).or m.voices[j]? else m.voices[j]? := by
  obtain ⟨hn, h⟩ | ⟨t, hs, hlt, -, h⟩ := mixVoice_cases cfg m i
  · by_cases hij : i = j
    · subst hij; simp [h, hn]
    · simp [h, hij]
  · by_cases hij : i = j
    · subst hij; simp [h, hs, hlt]
    · simp [h, hij]

/-- The mask bit of voice `j` after a visit of voice `i`. -/
theorem mixVoice_mask (m : Mix Osc) (i j : Nat) :
    (mixVoice cfg m i).mask.getLsbD j =
      (m.mask.getLsbD j && !(decide (i = j) && (m.tickOf cfg j).any VoiceTick.done)) := by
  obtain ⟨hn, h⟩ | ⟨t, hs, hlt, -, h⟩ := mixVoice_cases cfg m i
  · by_cases hij : i = j
    · subst hij; simp [h, hn]
    · simp [h, hij]
  · by_cases hij : i = j
    · subst hij
      cases hd : t.done <;> simp [h, hs, hd, getLsbD_maskClear]
    · cases hd : t.done <;> simp [h, hd, getLsbD_maskClear, hij]

theorem mixVoice_acc (m : Mix Osc) (i : Nat) :
    (mixVoice cfg m i).acc = m.acc + ((m.tickOf cfg i).map VoiceTick.contrib).getD 0 := by
  obtain ⟨hn, h⟩ | ⟨t, hs, -, -, h⟩ := mixVoice_cases cfg m i
  · simp [h, hn]
  · simp [h, hs]

theorem mixVoice_calls (m : Mix Osc) (i : Nat) :
    (mixVoice cfg m i).calls =
      m.calls ++ ((m.tickOf cfg i).map fun t => stepCall i t.raw).getD [] := by
  obtain ⟨hn, h⟩ | ⟨t, hs, -, -, h⟩ := mixVoice_cases cfg m i
  · simp [h, hn]
  · simp [h, hs]

@[simp] theorem mixAlong_nil (m : Mix Osc) : mixAlong cfg [] m = m := rfl

@[simp] theorem mixAlong_cons (i : Nat) (l : List Nat) (m : Mix Osc) :
    mixAlong cfg (i :: l) m = mixAlong cfg l (mixVoice cfg m i) := rfl

@[simp] theorem mixAlong_length (l : List Nat) (m : Mix Osc) :
    (mixAlong cfg l m).voices.length = m.voices.length := by
  induction l generalizing m with
  | nil => rfl
  | cons i l ih => simp [ih]

/-- The registers of every voice after the visits of an order without repeats: an enabled voice in it has taken one
step, every other is as before. -/
theorem mixAlong_voices {l : List Nat} (hl : l.Nodup) (m : Mix Osc) (j : Nat) :
    (mixAlong cfg l m).voices[j]? =
      if j ∈ l then ((m.tickOf cfg j).map VoiceTick.voice).or m.voices[j]? else m.voices[j]? := by
  induction l generalizing m with
  | nil => simp
  | cons i l ih =>
    obtain ⟨hi, hl⟩ := List.nodup_cons.1 hl
    rw [mixAlong_cons, ih hl, mixVoice_voices]
    by_cases hij : i = j
    · subst hij; simp [hi]
    · simp [hij, Ne.symm hij, mixVoice_tickOf_ne cfg m hij]

/-- The mask after the visits: bits are cleared only, and only those of voices that report DONE (R133). -/
theorem mixAlong_mask {l : List Nat} (hl : l.Nodup) (m : Mix Osc) (j : Nat) :
    (mixAlong cfg l m).mask.getLsbD j =
      (m.mask.getLsbD j && !(decide (j ∈ l) && (m.tickOf cfg j).any VoiceTick.done)) := by
  induction l generalizing m with
  | nil => simp
  | cons i l ih =>
    obtain ⟨hi, hl⟩ := List.nodup_cons.1 hl
    rw [mixAlong_cons, ih hl, mixVoice_mask]
    by_cases hij : i = j
    · subst hij; simp [hi]
    · simp [hij, Ne.symm hij, mixVoice_tickOf_ne cfg m hij]

/-- The accumulator after the visits: the sum of the answers, with no clamping in between (R132). -/
theorem mixAlong_acc {l : List Nat} (hl : l.Nodup) (m : Mix Osc) :
    (mixAlong cfg l m).acc =
      m.acc + (l.map fun i => ((m.tickOf cfg i).map VoiceTick.contrib).getD 0).sum := by
  induction l generalizing m with
  | nil => simp
  | cons i l ih =>
    obtain ⟨hi, hl⟩ := List.nodup_cons.1 hl
    have hmap : (l.map fun k => (((mixVoice cfg m i).tickOf cfg k).map VoiceTick.contrib).getD 0) =
        l.map fun k => ((m.tickOf cfg k).map VoiceTick.contrib).getD 0 :=
      List.map_congr_left fun k hk => by
        rw [mixVoice_tickOf_ne cfg m (fun h : i = k => hi (h ▸ hk))]
    rw [mixAlong_cons, ih hl, mixVoice_acc, hmap, List.map_cons, List.sum_cons]
    omega

/-- The calls on the capability port, in the order of the visits (R131). -/
theorem mixAlong_calls {l : List Nat} (hl : l.Nodup) (m : Mix Osc) :
    (mixAlong cfg l m).calls =
      m.calls ++ l.flatMap fun i => ((m.tickOf cfg i).map fun t => stepCall i t.raw).getD [] := by
  induction l generalizing m with
  | nil => simp
  | cons i l ih =>
    obtain ⟨hi, hl⟩ := List.nodup_cons.1 hl
    have hmap : (l.flatMap fun k => (((mixVoice cfg m i).tickOf cfg k).map fun t => stepCall k t.raw).getD []) =
        l.flatMap fun k => ((m.tickOf cfg k).map fun t => stepCall k t.raw).getD [] :=
      List.flatMap_congr fun k hk => by
        rw [mixVoice_tickOf_ne cfg m (fun h : i = k => hi (h ▸ hk))]
    rw [mixAlong_cons, ih hl, mixVoice_calls, hmap, List.flatMap_cons, List.append_assoc]

/-! ### The order of R131 -/

@[simp] theorem mem_descending {n i : Nat} : i ∈ descending n ↔ i < n := by
  induction n with
  | zero => simp [descending]
  | succ n ih => simp only [descending, List.mem_cons, ih]; omega

theorem nodup_descending (n : Nat) : (descending n).Nodup := by
  induction n with
  | zero => exact List.nodup_nil
  | succ n ih => exact List.nodup_cons.2 ⟨by simp, ih⟩

theorem descending_eq_reverse_range (n : Nat) : descending n = (List.range n).reverse := by
  induction n with
  | zero => rfl
  | succ n ih => simp [descending, ih, List.range_succ]

/-! ### The fields of the state a TICK leaves -/

variable (s : State.Of Osc)

@[simp] theorem ticked_requests : (ticked cfg s).requests = s.requests := rfl
@[simp] theorem ticked_out : (ticked cfg s).out = BitVec.ofInt 8 (saturate (mixed cfg s).acc) := rfl
@[simp] theorem ticked_clipcnt : (ticked cfg s).clipcnt = countClip s.clipcnt (mixed cfg s).acc := rfl
@[simp] theorem ticked_activity :
    (ticked cfg s).activity = { sampleValid := true, oscCalls := (mixed cfg s).calls } := rfl
@[simp] theorem ticked_nv : (ticked cfg s).nv = s.nv := by
  show (mixAlong cfg (descending s.nv) (mixStart s)).voices.length = _
  rw [mixAlong_length]; rfl

end Sys2Proof.Machine
end

