-- ==== Sys2Proof/Laws/Arithmetic.lean ====
section
/-! SUPPORT. The arithmetic of EVM in the terms linear arithmetic decides, and the small facts of the envelope. -/

namespace Sys2Proof.Machine

variable {Osc : Type}

/-! ### Saturation and the clip counter (R134, R135) -/

theorem saturate_cases (x : Int) :
    (x < -128 ∧ saturate x = -128) ∨ (127 < x ∧ saturate x = 127) ∨ (-128 ≤ x ∧ x ≤ 127 ∧ saturate x = x) := by
  unfold saturate clamp sampleMin sampleMax
  split_ifs <;> omega

theorem clipped_iff (x : Int) : clipped x = true ↔ x < -128 ∨ 127 < x := by
  unfold clipped
  have := saturate_cases x
  simp only [decide_eq_true_eq]
  omega

theorem countClip_of_clip (c : BitVec 16) {x : Int} (h : x < -128 ∨ 127 < x) : countClip c x = c + 1 := by
  simp [countClip, (clipped_iff x).2 h]

theorem countClip_of_fit (c : BitVec 16) {x : Int} (h1 : -128 ≤ x) (h2 : x ≤ 127) : countClip c x = c := by
  have : ¬ clipped x = true := by rw [clipped_iff]; omega
  simp [countClip, this]

/-- The stored sample reads back as the saturated sum (R136). -/
theorem toInt_ofInt_saturate (x : Int) : (BitVec.ofInt 8 (saturate x)).toInt = saturate x := by
  have := saturate_cases x
  rw [BitVec.toInt_ofInt, Int.bmod_eq_of_le] <;> norm_num <;> omega

/-! ### The contribution (R105) and the duration (R23) -/

theorem contribution_eq (raw : Int) (vol g : Nat) : contribution raw vol g = raw * vol * g / 32768 := by
  simp [contribution, asr, volShift, gainShift]

theorem dur_le (v : Voice Osc) : 1 ≤ v.dur ∧ v.dur ≤ 256 := by
  unfold Voice.dur durOf
  omega

/-- `eu + 1` does not wrap while budget is left (R107). -/
theorem eu_add_one {v : Voice Osc} (h : v.eu.toNat < v.dur) : (v.eu + 1).toNat = v.eu.toNat + 1 := by
  have := dur_le v
  rw [BitVec.toNat_add, show (1 : BitVec 9).toNat = 1 from rfl]
  omega

/-! ### Phases (R101) -/

theorem phaseAt_eq_done {cfg : Cfg Osc} {u rel dur : Nat} : phaseAt cfg u rel dur = .done ↔ dur ≤ u := by
  unfold phaseAt
  split_ifs <;> simp [*]

theorem phaseAt_eq_release {cfg : Cfg Osc} {u rel dur : Nat} :
    phaseAt cfg u rel dur = .release ↔ u < dur ∧ rel ≤ u := by
  unfold phaseAt
  split_ifs <;> simp <;> omega

/-! ### The instance the machine is -/

theorem evm_timeUnit_pos : 1 ≤ evm.timeUnit := Nat.le_add_left 1 _

/-! ### Voices by index -/

theorem State.Of.voice?_lt {s : State.Of Osc} {i : Nat} {v : Voice Osc} (h : s.voice? i = some v) : i < s.nv :=
  (List.getElem?_eq_some_iff.1 h).1

theorem State.Of.exists_voice? {s : State.Of Osc} {i : Nat} (h : i < s.nv) : ∃ v, s.voice? i = some v :=
  ⟨_, List.getElem?_eq_getElem h⟩

theorem State.Of.voice?_mem {s : State.Of Osc} {i : Nat} {v : Voice Osc} (h : s.voice? i = some v) : v ∈ s.voices :=
  List.mem_of_getElem? h

end Sys2Proof.Machine
end

