-- ==== Sys2Proof/Laws/Decode.lean ====
section
/-! SUPPORT. How the fields of a word are read back, said once (R70, R72, R55). -/

namespace Sys2Proof

variable (op : BitVec 4) (v : VoiceIdx) (f : FrameWord) (freq : Freq) (vol durm1 rel : BitVec 8)

@[simp] theorem opField_assembleWord : opField (assembleWord op v f) = op := by
  unfold opField assembleWord
  ext i hi
  simp only [BitVec.getElem_extractLsb', BitVec.getLsbD_append]
  simp [BitVec.getLsbD_eq_getElem hi]

@[simp] theorem voiceField_assembleWord : voiceField (assembleWord op v f) = v := by
  unfold voiceField assembleWord
  ext i hi
  simp only [BitVec.getElem_extractLsb', BitVec.getLsbD_append]
  simp [(by omega : 40 + i < 44), BitVec.getLsbD_eq_getElem hi]

@[simp] theorem freqField_assembleWord :
    freqField (assembleWord op v (encodeFrame freq vol durm1 rel)) = freq := by
  unfold freqField assembleWord encodeFrame
  ext i hi
  simp only [BitVec.getElem_extractLsb', BitVec.getLsbD_append]
  simp [(by omega : 24 + i < 44), (by omega : 24 + i < 40),
    BitVec.getLsbD_eq_getElem hi]

@[simp] theorem volField_assembleWord :
    volField (assembleWord op v (encodeFrame freq vol durm1 rel)) = vol := by
  unfold volField assembleWord encodeFrame
  ext i hi
  simp only [BitVec.getElem_extractLsb', BitVec.getLsbD_append]
  simp [(by omega : 16 + i < 44), (by omega : 16 + i < 40), (by omega : 16 + i < 24),
    BitVec.getLsbD_eq_getElem hi]

@[simp] theorem durm1Field_assembleWord :
    durm1Field (assembleWord op v (encodeFrame freq vol durm1 rel)) = durm1 := by
  unfold durm1Field assembleWord encodeFrame
  ext i hi
  simp only [BitVec.getElem_extractLsb', BitVec.getLsbD_append]
  simp [(by omega : 8 + i < 44), (by omega : 8 + i < 40), (by omega : 8 + i < 24),
    (by omega : 8 + i < 16), BitVec.getLsbD_eq_getElem hi]

@[simp] theorem relField_assembleWord :
    relField (assembleWord op v (encodeFrame freq vol durm1 rel)) = rel := by
  unfold relField assembleWord encodeFrame
  ext i hi
  simp only [BitVec.getElem_extractLsb', BitVec.getLsbD_append]
  simp [(by omega : i < 44), (by omega : i < 40), (by omega : i < 24), (by omega : i < 16), hi]

/-- A word is made of its fields (R70, R72). -/
theorem assembleWord_fields (w : OpWord) :
    assembleWord (opField w) (voiceField w)
      (encodeFrame (freqField w) (volField w) (durm1Field w) (relField w)) = w := by
  simp only [freqField, volField, durm1Field, relField, assembleWord, encodeFrame, opField, voiceField]
  ext i hi
  simp only [← BitVec.getLsbD_eq_getElem, BitVec.getLsbD_append, BitVec.getLsbD_extractLsb']
  interval_cases i <;> simp

/-- A word is made of its six bytes (R55). -/
theorem wordOfBytes_byteOfWord (w : OpWord) :
    wordOfBytes (byteOfWord w 0) (byteOfWord w 1) (byteOfWord w 2) (byteOfWord w 3) (byteOfWord w 4)
      (byteOfWord w 5) = w := by
  unfold wordOfBytes byteOfWord
  ext i hi
  simp only [← BitVec.getLsbD_eq_getElem, BitVec.getLsbD_append, BitVec.getLsbD_extractLsb']
  interval_cases i <;> simp

end Sys2Proof
end

