-- ==== Sys2Proof/Laws/PerInstr.lean ====
section
/-! SUPPORT. Statements about every instruction as text, one lemma per constructor of `Instr`. -/

namespace Sys2Proof.Laws.OpcodeField

/-- The word of an operation carries that operation's code in its `op` field (R70, R74). -/
def Statement (i : Instr) : Prop := opField (encode i) = i.opcode

theorem load (v : VoiceIdx) (freq : Freq) (vol durm1 rel : BitVec 8) :
    Statement (.load v freq vol durm1 rel) := opField_assembleWord ..

theorem enable (v : VoiceIdx) : Statement (.enable v) := opField_assembleWord ..

theorem disable (v : VoiceIdx) : Statement (.disable v) := opField_assembleWord ..

theorem tick : Statement .tick := opField_assembleWord ..

end Sys2Proof.Laws.OpcodeField
end

