-- ==== Sys2Proof/Laws/Step.lean ====
section
/-! SUPPORT. What one operation and one step can do, said once: the inversion lemmas the invariants are derived from. -/

namespace Sys2Proof.Machine

variable {Osc : Type} {cfg : Cfg Osc} {s t : State.Of Osc}

/-- What taking a request off the ports can answer (R166). -/
theorem nextEvent_cases (rs : List Requests) :
    (rs = [] ∧ nextEvent rs = (.idle, [])) ∨
    ∃ r rest, rs = r :: rest ∧
      ((r.rst = true ∧ nextEvent rs = (.reset, rest)) ∨
       (r.rst = false ∧ ∃ w, r.op = some w ∧
          nextEvent rs = (.op w, if r.tick then { r with op := none } :: rest else rest)) ∨
       (r.rst = false ∧ r.op = none ∧ r.tick = true ∧ nextEvent rs = (.op tickWord, rest)) ∨
       (r.rst = false ∧ r.op = none ∧ r.tick = false ∧ nextEvent rs = (.idle, rest))) := by
  cases rs with
  | nil => exact .inl ⟨rfl, rfl⟩
  | cons r rest =>
    obtain ⟨rst, op, tick⟩ := r
    refine .inr ⟨_, rest, rfl, ?_⟩
    cases rst <;> cases op <;> cases tick <;> simp [nextEvent]

/-! ### The machine is the instance `evm` -/

theorem exec_eq_execOn (i : Instr) (s : State) : exec i s = execOn evm i s := by cases i <;> rfl

theorem step_eq_stepOn (s : State) : step s = stepOn evm s := by
  unfold step stepOn runEvent
  rw [show exec = execOn evm from funext fun i => funext (exec_eq_execOn i)]

/-! ### Operations and steps of any instance -/

/-- ENABLE refuses a voice the instance lacks, and otherwise sets its bit (R140). -/
theorem enable_cases (v : VoiceIdx) (s : State.Of Osc) :
    (s.nv ≤ v.toNat ∧ enable v s = .refused .voiceOutOfRange) ∨
    (v.toNat < s.nv ∧ enable v s = .next ((s.setMask v.toNat).withActivity .quiet)) := by
  by_cases hv : v.toNat < s.nv
  · exact .inr ⟨hv, by simp [enable, voiceLegal, hv]⟩
  · exact .inl ⟨by omega, by simp [enable, voiceLegal, hv]⟩

/-- DISABLE refuses a voice the instance lacks, and otherwise clears its bit (R141). -/
theorem disable_cases (v : VoiceIdx) (s : State.Of Osc) :
    (s.nv ≤ v.toNat ∧ disable v s = .refused .voiceOutOfRange) ∨
    (v.toNat < s.nv ∧ disable v s = .next ((s.clearMask v.toNat).withActivity .quiet)) := by
  by_cases hv : v.toNat < s.nv
  · exact .inr ⟨hv, by simp [disable, voiceLegal, hv]⟩
  · exact .inl ⟨by omega, by simp [disable, voiceLegal, hv]⟩

/-- An operation that answers a next state is legal, and the state is the one its own rule gives. -/
theorem execOn_next {i : Instr} (h : execOn cfg i s = .next t) :
    (∃ v freq vol durm1 rel, i = .load v freq vol durm1 rel ∧ v.toNat < s.nv ∧ vol.toNat ≤ volMax ∧
      t = loaded cfg v freq vol durm1 rel s) ∨
    (∃ v, i = .enable v ∧ v.toNat < s.nv ∧ t = (s.setMask v.toNat).withActivity .quiet) ∨
    (∃ v, i = .disable v ∧ v.toNat < s.nv ∧ t = (s.clearMask v.toNat).withActivity .quiet) ∨
    (i = .tick ∧ t = ticked cfg s) := by
  cases i with
  | load v freq vol durm1 rel =>
    change load cfg v freq vol durm1 rel s = _ at h
    obtain ⟨-, h'⟩ | ⟨-, -, h'⟩ | ⟨hv, hvol, h'⟩ := load_cases cfg v freq vol durm1 rel s <;> rw [h'] at h <;> cases h
    exact .inl ⟨v, freq, vol, durm1, rel, rfl, hv, hvol, rfl⟩
  | enable v =>
    change enable v s = _ at h
    obtain ⟨-, h'⟩ | ⟨hv, h'⟩ := enable_cases v s <;> rw [h'] at h <;> cases h
    exact .inr (.inl ⟨v, rfl, hv, rfl⟩)
  | disable v =>
    change disable v s = _ at h
    obtain ⟨-, h'⟩ | ⟨hv, h'⟩ := disable_cases v s <;> rw [h'] at h <;> cases h
    exact .inr (.inr (.inl ⟨v, rfl, hv, rfl⟩))
  | tick =>
    cases h
    exact .inr (.inr (.inr ⟨rfl, rfl⟩))

/-- A step that answers a next state took a reset, an operation whose `execOn` answered it, or nothing; `u` is the
state with the request taken off the ports. -/
theorem stepOn_next (h : stepOn cfg s = .next t) :
    ∃ u, u = s.withRequests (nextEvent s.requests).2 ∧
      (t = resetEvent cfg u ∨ t = u.withActivity .quiet ∨ ∃ i, execOn cfg i u = .next t) := by
  refine ⟨_, rfl, ?_⟩
  unfold stepOn runEventBy at h
  split at h
  · cases h; exact .inr (.inl rfl)
  · cases h; exact .inl rfl
  · unfold runWordBy at h
    split at h
    · exact .inr (.inr ⟨_, h⟩)
    · cases h

/-! ### Operations and steps of the machine -/

theorem exec_next {s t : State} {i : Instr} (h : exec i s = .next t) :
    (∃ v freq vol durm1 rel, i = .load v freq vol durm1 rel ∧ v.toNat < s.nv ∧ vol.toNat ≤ volMax ∧
      t = loaded evm v freq vol durm1 rel s) ∨
    (∃ v, i = .enable v ∧ v.toNat < s.nv ∧ t = (s.setMask v.toNat).withActivity .quiet) ∨
    (∃ v, i = .disable v ∧ v.toNat < s.nv ∧ t = (s.clearMask v.toNat).withActivity .quiet) ∨
    (i = .tick ∧ t = ticked evm s) :=
  execOn_next (exec_eq_execOn i s ▸ h)

theorem step_next {s t : State} (h : step s = .next t) :
    ∃ u, u = s.withRequests (nextEvent s.requests).2 ∧
      (t = resetEvent evm u ∨ t = u.withActivity .quiet ∨ ∃ i, exec i u = .next t) := by
  simpa only [exec_eq_execOn] using stepOn_next (step_eq_stepOn s ▸ h)

/-- A run goes on from the next state of its first step. -/
theorem run_of_step (M : Host.Core) {k : Nat} {a b : M.State} (h : M.step a = .next b) :
    M.run (k + 1) a = M.run k b := by
  have hr : M.run (k + 1) a = match M.step a with
    | .next c => M.run k c
    | .fault e => .fault e
    | .refused e => .refused e := rfl
  rw [hr, h]

theorem core_run_of_step {s t : State} {k : Nat} (h : step s = .next t) :
    Sys2Proof.core.run (k + 1) s = Sys2Proof.core.run k t := run_of_step Sys2Proof.core h

end Sys2Proof.Machine
end

