-- ==== Sys2Proof/Tests/Slice0.lean ====
section
/-! SUPPORT. Tests against the vectors of spec/95_test_vectors.md and hand calculation from the rules, and a witness for
the hypotheses of every statement that has some. -/

namespace Sys2Proof.Tests

open Sys2Proof Sys2Proof.Machine

/-! ### Fixtures (95 section 0) -/

/-- An instance with the reference gain and a given oscillator, its states numbers. -/
def fixture (timeUnit a d sus : Nat) (oscLoad : Nat → Freq → Nat) (oscStep : Nat → Nat × Sample) : Cfg Nat where
  timeUnit := timeUnit
  attackUnits := a
  decayUnits := d
  sustainLevel := sus
  envGain := envGainRef a d sus
  oscReset := 0
  oscLoad := oscLoad
  oscStep := oscStep

/-- `CFG_T` with `OSC_K(k)`. -/
def cfgT (k : Sample) : Cfg Nat := fixture 2 2 2 192 (fun _ _ => 0) (fun s => (s, k))

/-- `CFG_F` with `OSC_K(k)`. -/
def cfgF (k : Sample) : Cfg Nat := fixture 1 0 0 256 (fun _ _ => 0) (fun s => (s, k))

/-- `CFG_T` with `OSC_ALT`. -/
def cfgAlt : Cfg Nat := fixture 2 2 2 192 (fun _ _ => 0) (fun s => if s = 0 then (1, 127) else (0, -128))

/-- An instance whose gain is always full level, for witnesses of `Cfg.Valid`. -/
def cfgFull : Cfg Nat := { cfgF 127 with envGain := fun _ _ _ => 256 }

/-- The reset state of a fixture with `n` voices. -/
def fresh (n : Nat) : State.Of Nat := State.Of.afterReset n 0

/-- The reset state of the machine with `n` voices. -/
def freshEvm (n : Nat) : State := State.Of.afterReset n Config.oscReset

/-- A voice loaded with one frame under an instance. -/
def note (cfg : Cfg Nat) (freq : Freq) (vol durm1 rel : BitVec 8) : Voice Nat :=
  loadVoice cfg freq vol durm1 rel (Voice.atReset 0)

def nextOf : Host.Outcome State Fault Refusal → Option State
  | .next s => some s
  | _ => none

def refusalOf : Host.Outcome State Fault Refusal → Option Refusal
  | .refused r => some r
  | _ => none

/-! ### Decoding words written out from R70 to R78 (vectors E1 to E15) -/

-- op 0001, voice 0000, freq 440 = 0x01B8, vol 128 = 0x80, durm1 7, rel 6
theorem test_decode_load :
    decodeWord 0b0001_0000_0000000110111000_10000000_00000111_00000110#48 = .ok (.load 0 440 128 7 6) := by decide

theorem test_decode_load_extremes : decodeWord 0x1FFFFF00FFFF#48 = .ok (.load 15 65535 0 255 255) := by decide

theorem test_decode_load_fields : decodeWord 0x110106640201#48 = .ok (.load 1 262 100 2 1) := by decide

theorem test_decode_load_volume_129 : decodeWord 0x1001B8810706#48 = .ok (.load 0 440 129 7 6) := by decide

theorem test_decode_enable_ignored_bits : decodeWord 0x23FFFFFFFFFF#48 = .ok (.enable 3) := by decide

theorem test_decode_disable : decodeWord 0x300000000000#48 = .ok (.disable 0) := by decide

theorem test_decode_tick_ignored_bits : decodeWord 0x4ABCDEF01234#48 = .ok .tick := by decide

theorem test_decode_reserved :
    decodeWord 0x000000000000#48 = .error (.reservedOp 0) ∧
    decodeWord 0x500000000000#48 = .error (.reservedOp 5) ∧
    decodeWord 0xF00000000000#48 = .error (.reservedOp 15) := by decide

theorem test_decode_bytes :
    decodeBytes [0x06, 0x07, 0x80, 0xB8, 0x01, 0x10, 0xAA] = .ok (.load 0 440 128 7 6, [0xAA]) := by decide

theorem test_decode_short : decodeBytes [0x06, 0x07, 0x80] = .error (.truncated 3) := by decide

theorem test_table_rows :
    decodeTableWord 48 0x100000000000 = some (.load 0 0 0 0 0) ∧
    decodeTableWord 48 0x200000000000 = some (.enable 0) ∧
    decodeTableWord 48 0x300000000000 = some (.disable 0) ∧
    decodeTableWord 48 0x400000000000 = some .tick ∧
    decodeTableWord 48 0x500000000000 = none := by decide

-- R89: rel, durm1, vol, freq_lo, freq_hi
theorem test_frame_bytes : bytesOfFrame (encodeFrame 440 128 7 6) = [0x06, 0x07, 0x80, 0xB8, 0x01] := by decide

/-! ### WellFormed (R82) -/

theorem test_wellFormed_refuses :
    Instr.wellFormed 4 (.load 4 440 128 7 6) = false ∧ Instr.wellFormed 4 (.load 0 440 129 7 6) = false ∧
    Instr.wellFormed 4 (.enable 4) = false ∧ Instr.wellFormed 4 (.disable 15) = false := by decide

theorem test_wellFormed_accepts :
    Instr.wellFormed 4 (.load 3 65535 128 255 255) = true ∧ Instr.wellFormed 16 (.disable 15) = true ∧
    Instr.wellFormed 1 .tick = true := by decide

/-! ### The envelope (vectors F, G) and the contribution (K) -/

-- F2: release cuts decay short
theorem test_phaseAt_release_cuts_decay :
    (List.range 7).map (fun u => phaseAt (cfgT 0) u 3 6) =
      [.attack, .attack, .decay, .release, .release, .release, .done] := by decide

-- F7: rel > dur, no release
theorem test_phaseAt_no_release :
    (List.range 5).map (fun u => phaseAt (cfgT 0) u 9 4) = [.attack, .attack, .decay, .decay, .done] := by decide

-- G1
theorem test_gain_whole_note :
    (List.range 9).map (fun u => (cfgT 0).envGain u 6 8) = [128, 256, 224, 192, 192, 192, 128, 64, 0] := by decide

-- G9, CFG_L
theorem test_gain_long :
    (List.range 13).map (fun u => envGainRef 3 4 100 u 9 12) =
      [85, 170, 256, 217, 178, 139, 100, 100, 100, 75, 50, 25, 0] := by decide

-- K3, K4, K6, K12: rounding toward minus infinity
theorem test_contribution_rounds_down :
    contribution (-1) 64 256 = -1 ∧ contribution 1 64 256 = 0 ∧ contribution (-100) 64 192 = -38 ∧
    contribution (-127) 100 224 = -87 := by decide

-- R21: ES_W = max(1, ceil(log2 TIME_UNIT))
theorem test_esWidth : [1, 2, 3, 4, 5, 8, 9].map esWidth = [1, 1, 2, 2, 3, 3, 4] := by decide

/-! ### VoiceStep (vectors S) -/

-- S1, S2: the second tick completes the unit
theorem test_voiceStep_boundary :
    let a := voiceStep (cfgT 127) (note (cfgT 127) 440 128 7 6)
    let b := voiceStep (cfgT 127) a.voice
    (a.contrib, a.done, a.voice.eu, a.voice.es) = (63, false, 0, 1) ∧
    (b.contrib, b.done, b.voice.eu, b.voice.es, b.voice.phase) = (63, false, 1, 0, .attack) := by decide

-- S3: the last tick still contributes
theorem test_voiceStep_last_tick :
    let v := { note (cfgT 127) 440 128 7 6 with eu := 7, es := 1, phase := .release }
    let a := voiceStep (cfgT 127) v
    (a.contrib, a.done, a.voice.eu, a.voice.es, a.voice.phase) = (31, true, 8, 0, .done) := by decide

-- S5, S6: a pause rests the oscillator, volume 0 does not
theorem test_voiceStep_pause :
    (voiceStep cfgAlt (note cfgAlt 0 0 0 0)).voice.osc = 0 ∧
    (voiceStep cfgAlt (note cfgAlt 440 0 0 1)).voice.osc = 1 := by decide

/-! ### LOAD (vectors L) -/

-- L1
theorem test_load_registers :
    let t := loaded (cfgT 127) 1 440 128 7 6 (fresh 4)
    t.voice? 1 = some { freq := 440, vol := 128, durm1 := 7, rel := 6, phase := .attack, eu := 0, es := 0, osc := 0 } ∧
    t.mask = 0b0010 ∧ t.voice? 0 = some (Voice.atReset 0) := by decide

-- L5, L6
theorem test_load_refusals :
    refusalOf (exec (.load 4 440 128 7 6) (freshEvm 4)) = some .voiceOutOfRange ∧
    refusalOf (exec (.load 0 440 129 7 6) (freshEvm 4)) = some .volumeOutOfRange := by decide

/-! ### TICK (vectors M, program P4) -/

-- R130, worked example
theorem test_tick_first_sample :
    let t := ticked (cfgT 127) (loaded (cfgT 127) 0 440 128 7 6 (fresh 4))
    (t.out, t.mask, t.clipcnt) = (63, 0b0001, 0) := by decide

-- as P4, with two voices at the negative limit: both retire, one clip, and the counter wraps (M9)
theorem test_tick_saturates_and_retires :
    let v := note (cfgF (-128)) 1000 128 0 1
    let t := ticked (cfgF (-128)) { fresh 2 with voices := [v, v], mask := 0b11, clipcnt := 65535 }
    t.out.toInt = -128 ∧ t.mask = 0 ∧ t.clipcnt = 0 := by decide

/-! ### ENABLE and DISABLE (vectors N) -/

theorem test_enable :
    (nextOf (exec (.enable 3) { freshEvm 4 with mask := 0b0001 })).map State.Of.mask = some 0b1001 := by decide

theorem test_enable_refused : refusalOf (exec (.enable 4) (freshEvm 4)) = some .voiceOutOfRange := by decide

theorem test_disable :
    (nextOf (exec (.disable 0) { freshEvm 4 with mask := 0b1001 })).map State.Of.mask = some 0b1000 := by decide

theorem test_disable_refused : refusalOf (exec (.disable 15) (freshEvm 4)) = some .voiceOutOfRange := by decide

/-! ### Events -/

-- the word placed is what the next step runs, as the first instruction after reset
theorem test_step_runs_placed_word :
    (nextOf (step (State.reset.withFetchWord 48 0x230000000000))).map State.Of.mask = some 0b1000 := by rfl

theorem test_step_reserved_word :
    refusalOf (step ((freshEvm 4).withFetchWord 48 0x500000000000)) = some .reservedOp := by decide

/-! ### Assembler (R86, R87) -/

-- "LOAD 0, 0x1B8, 128, 8, 6 ; note"
theorem test_assemble_text :
    assembleText ['L', 'O', 'A', 'D', ' ', '0', ',', ' ', '0', 'x', '1', 'B', '8', ',', '1', '2', '8', ',', ' ', '8', ',',
      '6', ' ', ';', ' ', 'n'] = some [presentWord 0x1001B8800706#48] := by decide

theorem test_assemble_reset_and_ticks :
    assembleListing [['R', 'E', 'S', 'E', 'T'], [';'], ['T', 'I', 'C', 'K', 'S', ' ', '2']] =
      some [presentReset, presentWord 0x400000000000#48, presentWord 0x400000000000#48] := by decide

theorem test_assemble_rejects :
    assemble (.load 0 440 128 0 6) = none ∧ assemble (.load 0 440 128 257 6) = none ∧
    assemble (.enable 16) = none ∧ assembleText ['T', 'I', 'C', 'K', ' ', '1'] = none := by decide

-- R87: LEGATO at the maximum duration saturates the release point
theorem test_legato_saturates : assemble (.legato 0 440 128 256) = assemble (.load 0 440 128 256 255) := by decide

/-! ### Witnesses: states and operands that meet the hypotheses of the statements -/

theorem cfgFull_valid : cfgFull.Valid := ⟨by decide, by decide, fun _ _ _ => Nat.le_refl 256⟩

theorem voiceInv_note : VoiceInv cfgFull (note cfgFull 440 128 0 0) :=
  ⟨by decide, by decide, fun _ => by decide, fun h => by revert h; decide, by decide⟩

/-- A voice of the machine's own instance in RELEASE from its first tick, whatever the OPEN parameters are. -/
def liveVoice : Voice OscState :=
  { freq := 440, vol := 128, durm1 := 0, rel := 0, phase := .release, eu := 0, es := 0, osc := Config.oscReset }

/-- One live voice, enabled. -/
def liveState : State := { State.reset with voices := [liveVoice], mask := 1 }

theorem liveVoice_inv : VoiceInv evm liveVoice :=
  ⟨Nat.succ_pos _, by decide, fun _ => ⟨by decide, rfl⟩, fun h => by revert h; decide, by decide⟩

theorem liveState_inv : Inv evm liveState where
  nv_pos := by decide
  nv_le := by decide
  voices := fun v hv => by rw [List.mem_singleton.1 hv]; exact liveVoice_inv
  mask_lt := fun i hi => by
    change 1 ≤ i at hi
    show (1#16).getLsbD i = false
    rw [BitVec.getLsbD_one]
    have : ¬ i = 0 := by omega
    simp [this]

/-- One DONE voice, enabled. -/
def doneState : State := { State.reset with voices := [Voice.atReset Config.oscReset], mask := 1 }

theorem witness_LoadWordKeepsEveryBit : 0x1FFFFF00FFFF#48 &&& 0xF00000000000#48 = 0x100000000000#48 := by decide

theorem witness_IgnoredBitsChangeNothing :
    0x23FFFFFFFFFF#48 &&& 0xF00000000000#48 = 0x200000000000#48 ∧
    0x3F0000000001#48 &&& 0xF00000000000#48 = 0x300000000000#48 ∧
    0x4FFFFFFFFFFF#48 &&& 0xF00000000000#48 = 0x400000000000#48 := by decide

theorem witness_ReservedCodesAreNoOperation :
    (opField 0#48).toNat = 0 ∧ 5 ≤ (opField 0x500000000000#48).toNat ∧ 5 ≤ (opField 0xF00000000000#48).toNat ∧
    ¬ ((opField 0x100000000000#48).toNat = 0 ∨ 5 ≤ (opField 0x100000000000#48).toNat) ∧
    ¬ ((opField 0x400000000000#48).toNat = 0 ∨ 5 ≤ (opField 0x400000000000#48).toNat) := by decide

theorem witness_AssemblerWritesCanonicalWords :
    assemble (.load 15 65535 255 256 255) = some [presentWord 0x1FFFFFFFFFFF#48] ∧
    assemble (.load 16 0 0 1 0) = none ∧ assemble (.load 0 65536 0 1 0) = none ∧
    assemble (.load 0 0 256 1 0) = none ∧ assemble (.load 0 0 0 1 256) = none ∧
    assemble (.enable 15) = some [presentWord 0x2F0000000000#48] ∧
    assemble (.disable 16) = none := by decide

theorem witness_PseudoOperationsExpand :
    phaseAt (cfgT 0) 254 (legatoRel 255) 255 = .sustain ∧ phaseAt (cfgT 0) 255 (legatoRel 256) 256 = .release ∧
    phaseAt (cfgT 0) 254 (legatoRel 256) 256 = .sustain := by decide

theorem witness_StepRunsDecodedOperation :
    let r : Requests := { rst := false, op := some 0x4ABCDEF01234#48, tick := true }
    let s := State.reset.withRequests [r]
    s.requests = [r] ∧ r.rst = false ∧ r.op = some 0x4ABCDEF01234#48 ∧
      decodeWord 0x4ABCDEF01234#48 = .ok .tick := ⟨rfl, rfl, rfl, by decide⟩

theorem witness_IdleHoldsRegisters : State.reset.requests = [] := rfl

theorem witness_LoadResult :
    State.reset.voice? (15 : VoiceIdx).toNat = some (Voice.atReset Config.oscReset) ∧ (128 : BitVec 8).toNat ≤ 128 ∧
    (freshEvm 4).nv ≤ (4 : VoiceIdx).toNat ∧
    (3 : VoiceIdx).toNat < (freshEvm 4).nv ∧ 128 < (129 : BitVec 8).toNat :=
  ⟨rfl, by decide, by decide, by decide, by decide⟩

theorem witness_LoadInitialPhase :
    ∃ t w, exec (.load 0 440 128 7 0) State.reset = .next t ∧ t.voice? (0 : VoiceIdx).toNat = some w :=
  ⟨_, _, rfl, rfl⟩

theorem witness_SecondLoadWins :
    State.reset.voice? (0 : VoiceIdx).toNat = some (Voice.atReset Config.oscReset) ∧
    (128 : BitVec 8).toNat ≤ 128 ∧ (0 : BitVec 8).toNat ≤ 128 := ⟨rfl, by decide, by decide⟩

theorem witness_EnableResult : (3 : VoiceIdx).toNat < (freshEvm 4).nv ∧ (freshEvm 4).nv ≤ (4 : VoiceIdx).toNat := by decide

theorem witness_DisableResult : (3 : VoiceIdx).toNat < (freshEvm 4).nv ∧ (freshEvm 4).nv ≤ (4 : VoiceIdx).toNat := by decide

theorem witness_RepeatedOperationsAreIdempotent :
    (∃ t, exec (.enable 15) State.reset = .next t) ∧ (∃ t, exec (.disable 15) State.reset = .next t) ∧
    (∃ t, exec (.load 15 440 128 7 6) State.reset = .next t) := ⟨⟨_, rfl⟩, ⟨_, rfl⟩, ⟨_, rfl⟩⟩

theorem witness_DisableThenLoadIsLoad : (15 : VoiceIdx).toNat < State.reset.nv := by decide

theorem witness_DifferentVoicesCommute :
    Instr.voice? (.load 0 440 128 7 6) = some 0 ∧ Instr.voice? (.disable 3) = some 3 ∧ (0 : Nat) ≠ 3 ∧
    Instr.wellFormed (freshEvm 4).nv (.load 0 440 128 7 6) = true ∧
    Instr.wellFormed (freshEvm 4).nv (.disable 3) = true := by decide

-- a live voice on a boundary, one that is not, and a DONE voice
theorem witness_VoiceStepFollowsItsRule :
    cfgFull.Valid ∧ VoiceInv cfgFull (note cfgFull 440 128 0 0) ∧ (note cfgFull 440 128 0 0).phase ≠ .done ∧
    (note cfgFull 440 128 0 0).es = cfgFull.timeUnit - 1 ∧
    VoiceInv cfgFull (Voice.atReset 0) ∧ (Voice.atReset (0 : Nat)).phase = .done :=
  ⟨cfgFull_valid, voiceInv_note, by decide, by decide,
    ⟨by decide, by decide, fun h => absurd rfl h, fun _ => ⟨rfl, .inr rfl⟩, by decide⟩, rfl⟩

theorem witness_VoiceStepFollowsItsRule_within_unit :
    ∃ cfg : Cfg Nat, cfg.Valid ∧ VoiceInv cfg (note cfg 440 128 0 0) ∧ (note cfg 440 128 0 0).phase ≠ .done ∧
      (note cfg 440 128 0 0).es ≠ cfg.timeUnit - 1 :=
  ⟨{ cfgFull with timeUnit := 2 }, ⟨by decide, by decide, fun _ _ _ => Nat.le_refl 256⟩,
    ⟨by decide, by decide, fun _ => by decide, fun h => by revert h; decide, by decide⟩, by decide, by decide⟩

theorem witness_PauseAdvancesSilently :
    (note cfgFull 0 128 0 0).phase ≠ .done ∧ (note cfgFull 0 128 0 0).freq = 0 ∧
    (note cfgFull 440 0 0 0).phase ≠ .done ∧ (note cfgFull 440 0 0 0).freq ≠ 0 ∧
    (note cfgFull 440 0 0 0).vol = 0 := by decide

theorem witness_LoadedVoiceLifetime :
    cfgFull.Valid ∧ 1 ≤ 256 ∧ 256 ≤ ((255 : BitVec 8).toNat + 1) * cfgFull.timeUnit ∧
    (255 : BitVec 8).toNat < (255 : BitVec 8).toNat + 1 := ⟨cfgFull_valid, by decide, by decide, by decide⟩

theorem witness_PhaseAtFollowsItsRule :
    (List.range 9).map (fun u => phaseAt (cfgT 0) u 6 8) =
      [.attack, .attack, .decay, .decay, .sustain, .sustain, .release, .release, .done] := by decide

theorem witness_VoiceStepNeverGoesBack : cfgFull.Valid ∧ VoiceInv cfgFull (note cfgFull 440 128 0 0) :=
  ⟨cfgFull_valid, voiceInv_note⟩

theorem witness_PhaseTransitionTable :
    (∃ t v', Inv evm liveState ∧ exec .tick liveState = .next t ∧ liveState.voice? 0 = some liveVoice ∧
      t.voice? 0 = some v') ∧
    (∃ t v', exec (.load 0 440 128 7 6) liveState = .next t ∧ t.voice? 0 = some v') ∧
    (∃ t v', exec (.enable 0) liveState = .next t ∧ t.voice? 0 = some v') ∧
    (∃ t v', exec (.disable 0) liveState = .next t ∧ t.voice? 0 = some v') ∧
    (∃ t v', step (liveState.withRequests [presentReset]) = .next t ∧ t.voice? 0 = some v') :=
  ⟨⟨_, _, liveState_inv, rfl, rfl, rfl⟩, ⟨_, _, rfl, rfl⟩, ⟨_, _, rfl, rfl⟩, ⟨_, _, rfl, rfl⟩, ⟨_, _, rfl, rfl⟩⟩

-- attack, decay, sustain and release units of CFG_T, with rel 6 and dur 8
theorem witness_ReferenceGainFollowsItsRule :
    192 ≤ 256 ∧ envGainRef 2 2 192 0 6 8 = 128 ∧ envGainRef 2 2 192 1 6 8 = 256 ∧ envGainRef 2 2 192 2 6 8 = 224 ∧
    envGainRef 2 2 192 3 6 8 = 192 ∧ envGainRef 2 2 192 4 6 8 = 192 ∧ envGainRef 2 2 192 7 6 8 = 64 ∧
    envGainRef 2 2 192 0 0 1 = 64 := by decide

theorem witness_ReferenceGainInRange : 256 ≤ 256 ∧ envGainRef 2 2 256 8 6 8 = 0 := by decide

theorem witness_ReleaseGainFalls :
    envGainRef 2 2 192 7 6 8 ≤ envGainRef 2 2 192 6 6 8 ∧ envGainRef 2 2 192 1 1 3 ≤ envGainRef 2 2 192 0 1 3 := by decide

theorem witness_ContributionFitsSample :
    (-128 : Int) ≤ -128 ∧ (127 : Int) ≤ 127 ∧ contribution (-128) 128 256 = -128 ∧ contribution 127 128 256 = 127 := by
  decide

theorem witness_SaturationNeverWraps :
    let two (k : Sample) : State.Of Nat := { fresh 4 with voices := List.replicate 4 (note (cfgF k) 440 128 0 1), mask := 0b0011 }
    127 < mixSum (cfgF 127) (two 127) ∧ mixSum (cfgF (-128)) (two (-128)) < -128 ∧
    mixSum (cfgF 63) (two 63) = 126 := by decide

theorem witness_ClipCounterCountsClips :
    let one (k : Sample) : State.Of Nat := { fresh 4 with voices := List.replicate 4 (note (cfgF k) 440 128 0 1), mask := 0b0001 }
    mixSum (cfgF 127) (one 127) = 127 ∧ mixSum (cfgF (-128)) (one (-128)) = -128 := by decide

theorem witness_VisitOrderFixedButImmaterial : [0, 2, 1, 3].Perm (descending (freshEvm 4).nv) := by decide

theorem fresh_inv (n : Nat) (h1 : 1 ≤ n) (h2 : n ≤ 16) : Inv cfgFull (fresh n) where
  nv_pos := by simpa [fresh, State.Of.nv, State.Of.afterReset] using h1
  nv_le := by simpa [fresh, State.Of.nv, State.Of.afterReset] using h2
  voices := fun v hv => by
    rw [List.eq_of_mem_replicate hv]
    exact ⟨by decide, by decide, fun h => absurd rfl h, fun _ => ⟨rfl, .inr rfl⟩, by decide⟩
  mask_lt := fun i _ => by show (0#16).getLsbD i = false; simp

theorem witness_AccumulatorNeverOverflows : cfgFull.Valid ∧ Inv cfgFull (fresh 16) :=
  ⟨cfgFull_valid, fresh_inv 16 (by decide) (by decide)⟩

theorem witness_FullScaleVoicesSaturate :
    let s : State.Of Nat := { fresh 2 with voices := List.replicate 2 (note (cfgF 127) 440 128 0 1), mask := 0b11 }
    ((List.range s.nv).filter s.enabled).length = 2 ∧
      ∀ j, j < s.nv → s.enabled j = true → contribIn (cfgF 127) s j = 127 := by decide

theorem witness_FullScaleVoicesSaturate_one :
    let s : State.Of Nat := { fresh 2 with voices := List.replicate 2 (note (cfgF (-128)) 440 128 0 1), mask := 0b10 }
    ((List.range s.nv).filter s.enabled).length = 1 ∧
      ∀ j, j < s.nv → s.enabled j = true → contribIn (cfgF (-128)) s j = -128 := by decide

theorem witness_RetiredVoiceNoLongerSummed : retires evm doneState 0 = true := rfl

theorem witness_EnabledDoneVoiceRetiresSilently :
    doneState.voice? 0 = some (Voice.atReset Config.oscReset) ∧
    (Voice.atReset Config.oscReset).phase = .done ∧ doneState.enabled 0 = true := ⟨rfl, rfl, by decide⟩

theorem witness_DisabledVoiceStandsStill : (0 : VoiceIdx).toNat < liveState.nv := by decide

theorem witness_TickWithEmptyMaskIsSilent : State.reset.mask = 0 := rfl

theorem witness_NewNoteHeardInNextTick :
    liveState.voice? (0 : VoiceIdx).toNat = some liveVoice ∧ (128 : BitVec 8).toNat ≤ 128 ∧ (440 : Freq) ≠ 0 :=
  ⟨rfl, by decide, by decide⟩

-- a bit set by ENABLE, one cleared by DISABLE, one cleared by a TICK, and a reset
theorem witness_MaskHasTwoKindsOfMutation_set :
    ∃ t, exec (.enable 1) (freshEvm 2) = .next t ∧ (freshEvm 2).enabled 1 = false ∧ t.enabled 1 = true :=
  ⟨_, rfl, by decide, by decide⟩

theorem witness_MaskHasTwoKindsOfMutation_clear :
    ∃ t, exec (.disable 0) liveState = .next t ∧ liveState.enabled 0 = true ∧ t.enabled 0 = false :=
  ⟨_, rfl, by decide, by decide⟩

theorem witness_MaskHasTwoKindsOfMutation_retire :
    ∃ t, exec .tick doneState = .next t ∧ doneState.enabled 0 = true ∧ t.enabled 0 = false :=
  ⟨_, rfl, by decide, by rfl⟩

theorem witness_MaskHasTwoKindsOfMutation_reset : ∃ t, step (liveState.withRequests [presentReset]) = .next t :=
  ⟨_, rfl⟩

theorem witness_OnlyLoadLeavesDone :
    ∃ t v v', exec (.load 0 440 128 0 0) State.reset = .next t ∧ State.reset.voice? 0 = some v ∧
      t.voice? 0 = some v' ∧ v.phase = .done ∧ v'.phase ≠ .done :=
  ⟨_, _, _, rfl, rfl, rfl, rfl, by intro h; exact Phase.noConfusion (h : Phase.release = Phase.done)⟩

theorem witness_OnlyTickWritesSampleAndClipCount :
    (∃ t, exec (.enable 0) State.reset = .next t) ∧ Instr.enable 0 ≠ .tick ∧
    (∃ t, exec .tick State.reset = .next t ∧ t.sampleValid = true) := ⟨⟨_, rfl⟩, by decide, ⟨_, rfl, rfl⟩⟩

theorem witness_ClipCountInfluencesNothing :
    (∃ t, exec .tick liveState = .next t) ∧ exec (.enable 4) (freshEvm 4) = .refused .voiceOutOfRange := ⟨⟨_, rfl⟩, rfl⟩

theorem witness_VoicesShareNothing :
    ∃ t t', liveState.voice? 0 = ({ liveState with voices := [liveVoice, liveVoice] } : State).voice? 0 ∧
      liveState.enabled 0 = ({ liveState with voices := [liveVoice, liveVoice] } : State).enabled 0 ∧
      exec .tick liveState = .next t ∧
      exec .tick { liveState with voices := [liveVoice, liveVoice] } = .next t' := ⟨_, _, rfl, rfl, rfl, rfl⟩

theorem witness_StepKeepsVoiceCount : ∃ t, step (liveState.withFetchWord 48 0x400000000000) = .next t := ⟨_, rfl⟩

theorem witness_StepKeepsInvariants : ∃ t, Inv evm liveState ∧ step liveState = .next t := ⟨_, liveState_inv, rfl⟩

theorem witness_EveryRunFromResetMeetsInvariants :
    ∃ t, Sys2Proof.core.run 2 (State.reset.withRequests [presentWord 0x1001B8800706#48, presentWord 0x400000000000#48]) =
      .next t := ⟨_, rfl⟩

theorem witness_DutifulHostIsNeverRefused :
    (State.reset.withRequests [presentReset, presentWord 0x1FFFFF80FFFF#48, presentWord 0x400000000000#48]).hostDutiful := by
  unfold State.Of.hostDutiful
  decide

theorem witness_PortsShowRegisters : liveState.voice? 0 = some liveVoice := rfl

theorem witness_LoadResultOnEveryInstance :
    (fresh 4).voice? (3 : VoiceIdx).toNat = some (Voice.atReset 0) ∧ (128 : BitVec 8).toNat ≤ 128 ∧
    (fresh 4).nv ≤ (4 : VoiceIdx).toNat ∧ (3 : VoiceIdx).toNat < (fresh 4).nv ∧ 128 < (129 : BitVec 8).toNat := by
  decide

theorem witness_TickResultOnEveryInstance :
    (loaded (cfgT 127) 0 440 128 7 6 (fresh 4)).voice? 0 = some (note (cfgT 127) 440 128 7 6) := by decide

theorem witness_EveryInstanceKeepsInvariants :
    cfgFull.Valid ∧ Inv cfgFull (fresh 16) ∧ ∃ t, stepOn cfgFull ((fresh 16).withRequests [presentWord tickWord]) = .next t :=
  ⟨cfgFull_valid, fresh_inv 16 (by decide) (by decide), _, rfl⟩

-- the alternating oscillator of `cfgAlt`, its two states named by Booleans
theorem witness_OscillatorStateNeverInspected :
    Cfg.Renames (fun n : Nat => decide (n = 0)) cfgAlt
      { timeUnit := 2, attackUnits := 2, decayUnits := 2, sustainLevel := 192, envGain := envGainRef 2 2 192,
        oscReset := true, oscLoad := fun _ _ => true,
        oscStep := fun b => if b = true then (false, 127) else (true, -128) } :=
  ⟨rfl, rfl, rfl, rfl, rfl, fun _ _ => rfl, fun n => by by_cases h : n = 0 <;> simp [cfgAlt, fixture, h]⟩

end Sys2Proof.Tests
end

section
/-! The gain of R103 never exceeds full level, so the machine's instance keeps the constraints of R7. -/

namespace Sys2Proof.Machine

theorem gainPre_le_gainOne {S : Nat} (hS : S ≤ gainOne) (A D u : Nat) : gainPre A D S u ≤ gainOne := by
  unfold gainPre
  split_ifs with hA
  · exact Nat.div_le_of_le_mul (Nat.mul_comm A gainOne ▸ Nat.mul_le_mul_left gainOne hA)
  · exact Nat.sub_le _ _
  · exact hS

theorem gainAtRelease_le_gainOne {S : Nat} (hS : S ≤ gainOne) (A D rel : Nat) :
    gainAtRelease A D S rel ≤ gainOne := by
  unfold gainAtRelease
  split_ifs <;> exact gainPre_le_gainOne hS ..

/-- In RELEASE the level is scaled by `(dur - u) / (dur - rel + 1)`, a factor below 1. -/
theorem envGainRef_le_gainOne {S : Nat} (hS : S ≤ gainOne) (A D u rel dur : Nat) :
    envGainRef A D S u rel dur ≤ gainOne := by
  unfold envGainRef
  split_ifs with hDone hRelease
  · exact Nat.zero_le _
  · have hFactor : dur - u ≤ dur - rel + 1 := by omega
    have hLevel := gainAtRelease_le_gainOne hS A D rel
    exact Nat.div_le_of_le_mul (Nat.mul_comm gainOne _ ▸ Nat.mul_le_mul hLevel hFactor)
  · exact gainPre_le_gainOne hS ..

theorem evm_sustainLevel_le_gainOne : evm.sustainLevel ≤ gainOne := Nat.le_of_lt_succ Config.sustainLevel.isLt

theorem evm_valid : evm.Valid where
  timeUnit_pos := evm_timeUnit_pos
  sustain_le := evm_sustainLevel_le_gainOne
  gain_le := envGainRef_le_gainOne evm_sustainLevel_le_gainOne _ _

/-- Settles O55: the four operations and the step agree with the instance by definition, and the constraint with content
is the bound on its gain (R102, R103). -/
theorem machineIsAnInstance : Obligations.MachineIsAnInstance :=
  ⟨exec_eq_execOn, step_eq_stepOn, rfl, evm_valid⟩

end Sys2Proof.Machine
end

section
/-! What an operation leaves of one voice and its mask bit, and when it is refused, said once for every operation. -/

namespace Sys2Proof.Machine

variable {Osc : Type} (cfg : Cfg Osc) (s : State.Of Osc) (j : Nat)

theorem State.Of.setMask_enabled {i : Nat} (hi : i < 16) :
    (s.setMask i).enabled j = (s.enabled j || decide (i = j)) := getLsbD_maskSet s.mask hi j

theorem State.Of.clearMask_enabled (i : Nat) :
    (s.clearMask i).enabled j = (s.enabled j && decide (i ≠ j)) := getLsbD_maskClear s.mask i j

theorem loaded_enabled (v : VoiceIdx) (freq : Freq) (vol durm1 rel : BitVec 8) :
    (loaded cfg v freq vol durm1 rel s).enabled j = (s.enabled j || decide (v.toNat = j)) :=
  getLsbD_maskSet s.mask v.isLt j

/-- An index from `NV` up names no voice (R54). -/
theorem State.Of.voice?_eq_none {s : State.Of Osc} {j : Nat} (h : s.nv ≤ j) : s.voice? j = none :=
  List.getElem?_eq_none h

/-! ### One voice in a TICK (R130, R133) -/

theorem mixStart_tickOf :
    (mixStart s).tickOf cfg j = if s.enabled j then (s.voice? j).map (voiceStep cfg) else none := rfl

theorem retires_eq_any : retires cfg s j = ((mixStart s).tickOf cfg j).any VoiceTick.done := by
  rw [mixStart_tickOf]
  unfold retires
  cases s.voice? j <;> cases s.enabled j <;> rfl

theorem contribIn_eq_getD :
    contribIn cfg s j = (((mixStart s).tickOf cfg j).map VoiceTick.contrib).getD 0 := by
  rw [mixStart_tickOf]
  unfold contribIn
  cases s.voice? j <;> cases s.enabled j <;> rfl

/-- A TICK steps an enabled voice and leaves every other. -/
theorem ticked_voice? :
    (ticked cfg s).voice? j =
      if s.enabled j then (s.voice? j).map fun v => (voiceStep cfg v).voice else s.voice? j := by
  change (mixAlong cfg (descending s.nv) (mixStart s)).voices[j]? = _
  rw [mixAlong_voices cfg (nodup_descending _), mixStart_tickOf,
    show (mixStart s).voices[j]? = s.voice? j from rfl]
  by_cases hj : j < s.nv
  · obtain ⟨v, hv⟩ := State.Of.exists_voice? hj
    cases s.enabled j <;> simp [hj, hv]
  · simp [hj, State.Of.voice?_eq_none (Nat.le_of_not_lt hj)]

/-- A TICK clears the bits of the voices that retire and no other. -/
theorem ticked_enabled : (ticked cfg s).enabled j = (s.enabled j && !retires cfg s j) := by
  change (mixAlong cfg (descending s.nv) (mixStart s)).mask.getLsbD j = _
  rw [mixAlong_mask cfg (nodup_descending _), retires_eq_any,
    show (mixStart s).mask.getLsbD j = s.enabled j from rfl]
  by_cases hj : j < s.nv
  · simp [hj]
  · simp [hj, mixStart_tickOf, State.Of.voice?_eq_none (Nat.le_of_not_lt hj)]

/-- The accumulator after any visits without repeats: the sum of the visited voices' contributions (R132). -/
theorem mixAlong_mixStart_acc {l : List Nat} (hl : l.Nodup) :
    (mixAlong cfg l (mixStart s)).acc = (l.map (contribIn cfg s)).sum := by
  rw [mixAlong_acc cfg hl, show (mixStart s).acc = 0 from rfl, Int.zero_add]
  exact congrArg List.sum (List.map_congr_left fun j _ => (contribIn_eq_getD cfg s j).symm)

/-! ### Any operation: the violation it is refused for, else the state it leaves (R161, R162) -/

/-- The contract violation in the operands, with `nv` voices: V1 before V2 (R161, R162). -/
def violationOf (nv : Nat) : Instr → Option Refusal
  | .load v _ vol _ _ =>
    if v.toNat < nv then if vol.toNat ≤ volMax then none else some .volumeOutOfRange else some .voiceOutOfRange
  | .enable v => if v.toNat < nv then none else some .voiceOutOfRange
  | .disable v => if v.toNat < nv then none else some .voiceOutOfRange
  | .tick => none

/-- The state an operation leaves where it is not refused. -/
def resultOn (i : Instr) : State.Of Osc :=
  match i with
  | .load v freq vol durm1 rel => loaded cfg v freq vol durm1 rel s
  | .enable v => (s.setMask v.toNat).withActivity .quiet
  | .disable v => (s.clearMask v.toNat).withActivity .quiet
  | .tick => ticked cfg s

theorem execOn_eq (i : Instr) :
    execOn cfg i s = (violationOf s.nv i).elim (.next (resultOn cfg s i)) .refused := by
  cases i with
  | load v freq vol durm1 rel =>
    change load cfg v freq vol durm1 rel s = _
    obtain ⟨hv, h⟩ | ⟨hv, hvol, h⟩ | ⟨hv, hvol, h⟩ := load_cases cfg v freq vol durm1 rel s
    · simp [h, violationOf, Nat.not_lt.2 hv]
    · simp [h, violationOf, hv, Nat.not_le.2 hvol]
    · simp [h, violationOf, hv, hvol, resultOn]
  | enable v =>
    change enable v s = _
    obtain ⟨hv, h⟩ | ⟨hv, h⟩ := enable_cases v s
    · simp [h, violationOf, Nat.not_lt.2 hv]
    · simp [h, violationOf, hv, resultOn]
  | disable v =>
    change disable v s = _
    obtain ⟨hv, h⟩ | ⟨hv, h⟩ := disable_cases v s
    · simp [h, violationOf, Nat.not_lt.2 hv]
    · simp [h, violationOf, hv, resultOn]
  | tick => rfl

variable {cfg s}

theorem eq_resultOn_of_execOn {t : State.Of Osc} {i : Instr} (h : execOn cfg i s = .next t) :
    t = resultOn cfg s i := by
  rw [execOn_eq] at h
  cases hi : violationOf s.nv i <;> rw [hi] at h <;> cases h
  rfl

theorem eq_resultOn_of_exec {s t : State} {i : Instr} (h : exec i s = .next t) : t = resultOn evm s i :=
  eq_resultOn_of_execOn (exec_eq_execOn i s ▸ h)

theorem resultOn_nv (i : Instr) : (resultOn cfg s i).nv = s.nv := by
  cases i <;> simp [resultOn]

end Sys2Proof.Machine
end

section
/-! The invariants of R27: each operation keeps them, so every step and every run does. -/

namespace Sys2Proof.Machine

variable {Osc : Type} {cfg : Cfg Osc} {s t : State.Of Osc}

/-! ### One voice -/

theorem voiceInv_atReset (hT : 1 ≤ cfg.timeUnit) : VoiceInv cfg (Voice.atReset cfg.oscReset) where
  es_lt := hT
  eu_le := Nat.zero_le _
  live h := absurd rfl h
  ended _ := ⟨rfl, .inr rfl⟩
  vol_le := Nat.zero_le _

/-- A duration is at least one unit, so a loaded voice is live. -/
theorem voiceInv_loadVoice (hT : 1 ≤ cfg.timeUnit) (freq : Freq) {vol : BitVec 8} (hvol : vol.toNat ≤ volMax)
    (durm1 rel : BitVec 8) (old : Voice Osc) : VoiceInv cfg (loadVoice cfg freq vol durm1 rel old) where
  es_lt := hT
  eu_le := Nat.zero_le _
  live _ := ⟨Nat.succ_pos _, rfl⟩
  ended h := by
    have hle : durOf durm1 ≤ 0 := phaseAt_eq_done.1 h
    exact absurd hle (Nat.not_succ_le_zero _)
  vol_le := hvol

/-- An advance keeps the invariants of a live voice: within a unit only `es` moves; at the boundary the new phase is
DONE exactly when the budget is used up. -/
theorem VoiceInv.advance {v : Voice Osc} (h : VoiceInv cfg v) (hLive : v.phase ≠ .done) :
    VoiceInv cfg (advance cfg v) := by
  obtain ⟨hEu, hPhase⟩ := h.live hLive
  by_cases hEs : v.es + 1 < cfg.timeUnit
  · rw [advance_es_of_ne cfg hEs]
    exact ⟨hEs, h.eu_le, fun _ => ⟨hEu, hPhase⟩, fun hDone => absurd hDone hLive, h.vol_le⟩
  · have hLt := h.es_lt
    have hNext := eu_add_one hEu
    have hLe : (v.eu + 1).toNat ≤ v.dur := by omega
    rw [advance_boundary cfg (by omega)]
    exact ⟨Nat.zero_lt_of_lt hLt, hLe,
      fun hp => ⟨Nat.lt_of_not_le fun hle => hp (phaseAt_eq_done.2 hle), rfl⟩,
      fun hp => ⟨rfl, .inl (Nat.le_antisymm hLe (phaseAt_eq_done.1 hp))⟩, h.vol_le⟩

/-- The invariants of a live voice do not speak of its oscillator. -/
theorem VoiceInv.withOsc {v : Voice Osc} (h : VoiceInv cfg v) (hLive : v.phase ≠ .done) (o : Osc) :
    VoiceInv cfg { v with osc := o } :=
  ⟨h.es_lt, h.eu_le, h.live, fun hDone => absurd hDone hLive, h.vol_le⟩

theorem VoiceInv.voiceStep {v : Voice Osc} (h : VoiceInv cfg v) : VoiceInv cfg (voiceStep cfg v).voice := by
  by_cases hDone : v.phase = .done
  · rwa [voiceStep_of_done cfg hDone]
  · rw [voiceStep_of_live cfg hDone]
    exact (h.withOsc hDone _).advance hDone

/-! ### One operation, one event, one step -/

theorem Inv.voice? (h : Inv cfg s) {j : Nat} {v : Voice Osc} (hv : s.voice? j = some v) : VoiceInv cfg v :=
  h.voices v (State.Of.voice?_mem hv)

/-- A state with as many voices as one that meets the invariants meets them if its voices do, by index, and it sets no
bit from `NV` up. -/
theorem Inv.of_voice? (h : Inv cfg s) (hnv : t.nv = s.nv) (hvoice : ∀ j v, t.voice? j = some v → VoiceInv cfg v)
    (hmask : ∀ j, s.nv ≤ j → t.enabled j = false) : Inv cfg t where
  nv_pos := hnv ▸ h.nv_pos
  nv_le := hnv ▸ h.nv_le
  voices v hv := by
    obtain ⟨j, hj⟩ := List.mem_iff_getElem?.1 hv
    exact hvoice j v hj
  mask_lt j hj := hmask j (hnv ▸ hj)

theorem Inv.loaded (h : Inv cfg s) (hT : 1 ≤ cfg.timeUnit) {v : VoiceIdx} (hv : v.toNat < s.nv) (freq : Freq)
    {vol : BitVec 8} (hvol : vol.toNat ≤ volMax) (durm1 rel : BitVec 8) :
    Inv cfg (loaded cfg v freq vol durm1 rel s) := by
  refine h.of_voice? (loaded_nv ..) (fun j w hw => ?_) (fun j hj => ?_)
  · rw [loaded_voice?] at hw
    split at hw
    · obtain ⟨old, -, rfl⟩ := Option.map_eq_some_iff.1 hw
      exact voiceInv_loadVoice hT freq hvol durm1 rel old
    · exact h.voice? hw
  · have hne : v.toNat ≠ j := by omega
    simp [loaded_enabled, h.mask_lt j hj, hne]

theorem Inv.setMask (h : Inv cfg s) {i : Nat} (hi : i < s.nv) : Inv cfg (s.setMask i) := by
  refine h.of_voice? rfl (fun j v hv => h.voice? hv) (fun j hj => ?_)
  have hne : i ≠ j := by omega
  simp [State.Of.setMask_enabled s j (Nat.lt_of_lt_of_le hi h.nv_le), h.mask_lt j hj, hne]

theorem Inv.clearMask (h : Inv cfg s) (i : Nat) : Inv cfg (s.clearMask i) :=
  h.of_voice? rfl (fun _ _ hv => h.voice? hv) fun j hj => by simp [State.Of.clearMask_enabled, h.mask_lt j hj]

theorem Inv.withActivity (h : Inv cfg s) (a : Activity) : Inv cfg (s.withActivity a) :=
  ⟨h.nv_pos, h.nv_le, h.voices, h.mask_lt⟩

theorem Inv.withRequests (h : Inv cfg s) (rs : List Requests) : Inv cfg (s.withRequests rs) :=
  ⟨h.nv_pos, h.nv_le, h.voices, h.mask_lt⟩

theorem Inv.ticked (h : Inv cfg s) : Inv cfg (ticked cfg s) := by
  refine h.of_voice? (ticked_nv ..) (fun j w hw => ?_) (fun j hj => ?_)
  · rw [ticked_voice?] at hw
    split at hw
    · obtain ⟨v, hv, rfl⟩ := Option.map_eq_some_iff.1 hw
      exact (h.voice? hv).voiceStep
    · exact h.voice? hw
  · rw [ticked_enabled, h.mask_lt j hj, Bool.false_and]

theorem Inv.execOn (h : Inv cfg s) (hT : 1 ≤ cfg.timeUnit) {i : Instr} (hi : execOn cfg i s = .next t) :
    Inv cfg t := by
  obtain ⟨v, freq, vol, durm1, rel, -, hv, hvol, rfl⟩ | ⟨v, -, hv, rfl⟩ | ⟨v, -, -, rfl⟩ | ⟨-, rfl⟩ := execOn_next hi
  · exact h.loaded hT hv freq hvol durm1 rel
  · exact (h.setMask hv).withActivity _
  · exact (h.clearMask _).withActivity _
  · exact h.ticked

theorem inv_afterReset (hT : 1 ≤ cfg.timeUnit) {nv : Nat} (h1 : 1 ≤ nv) (h16 : nv ≤ 16) :
    Inv cfg (State.Of.afterReset nv cfg.oscReset) where
  nv_pos := by rwa [State.Of.afterReset_nv]
  nv_le := by rwa [State.Of.afterReset_nv]
  voices v hv := by
    rw [List.eq_of_mem_replicate hv]
    exact voiceInv_atReset hT
  mask_lt _ _ := BitVec.getLsbD_zero

theorem Inv.resetEvent (h : Inv cfg s) (hT : 1 ≤ cfg.timeUnit) : Inv cfg (resetEvent cfg s) where
  nv_pos := by rw [resetEvent_nv]; exact h.nv_pos
  nv_le := by rw [resetEvent_nv]; exact h.nv_le
  voices v hv := by
    obtain ⟨_, -, rfl⟩ := List.mem_map.1 hv
    exact voiceInv_atReset hT
  mask_lt _ _ := BitVec.getLsbD_zero

theorem Inv.stepOn (h : Inv cfg s) (hT : 1 ≤ cfg.timeUnit) (hs : stepOn cfg s = .next t) : Inv cfg t := by
  obtain ⟨u, rfl, rfl | rfl | ⟨i, hi⟩⟩ := stepOn_next hs
  · exact (h.withRequests _).resetEvent hT
  · exact (h.withRequests _).withActivity _
  · exact (h.withRequests _).execOn hT hi

/-- Settles O58: each of the four operations, the reset event and the idle step keeps the invariants. -/
theorem everyInstanceKeepsInvariants : Obligations.EveryInstanceKeepsInvariants := fun _ _ hValid =>
  ⟨fun _ h1 h16 => inv_afterReset hValid.timeUnit_pos h1 h16, fun _ _ h hs => h.stepOn hValid.timeUnit_pos hs⟩

/-- Settles O51: the machine is EVM with the parameters `evm`, which keep the constraints of R7. -/
theorem stepKeepsInvariants : Obligations.StepKeepsInvariants := fun s t h hs =>
  (everyInstanceKeepsInvariants _ evm evm_valid).2 s t h (step_eq_stepOn s ▸ hs)

/-- Settles O50: `State.reset` is the reset state of `evm` with sixteen voices. -/
theorem resetMeetsInvariants : Obligations.ResetMeetsInvariants :=
  (everyInstanceKeepsInvariants _ evm evm_valid).1 16 (by decide) (Nat.le_refl 16)

/-! ### Runs -/

/-- A run of `k + 1` steps that answers a next state took a step that answered one. -/
theorem run_succ_next (M : Host.Core) {k : Nat} {a c : M.State} (h : M.run (k + 1) a = .next c) :
    ∃ b, M.step a = .next b ∧ M.run k b = .next c := by
  simp only [Host.Core.run] at h
  split at h
  · exact ⟨_, ‹_›, h⟩
  · cases h
  · cases h

/-- What every step keeps, every run keeps. -/
theorem run_keeps (M : Host.Core) {P : M.State → Prop} (hstep : ∀ a b, P a → M.step a = .next b → P b) {k : Nat}
    {a c : M.State} (ha : P a) (h : M.run k a = .next c) : P c := by
  induction k generalizing a with
  | zero => cases h; exact ha
  | succ k ih =>
    obtain ⟨b, hb, h⟩ := run_succ_next M h
    exact ih (hstep a b ha hb) h

/-- Settles O52: the reset state meets the invariants, whatever is presented to it, and every step keeps them. -/
theorem everyRunFromResetMeetsInvariants : Obligations.EveryRunFromResetMeetsInvariants := fun _ rs _ h =>
  run_keeps Sys2Proof.core stepKeepsInvariants (Inv.withRequests resetMeetsInvariants rs) h

/-- Settles O49: an operation keeps the voice list's length, and so do the reset event and the idle step. -/
theorem stepKeepsVoiceCount : Obligations.StepKeepsVoiceCount := by
  intro s t h
  obtain ⟨u, rfl, rfl | rfl | ⟨i, hi⟩⟩ := step_next h
  · simp
  · simp
  · rw [eq_resultOn_of_exec hi, resultOn_nv, State.Of.withRequests_nv]

end Sys2Proof.Machine
end

section
/-! The accumulator of R35: a contribution lies between its raw sample and 0, and at most sixteen are added. -/

namespace Sys2Proof.Machine

variable {Osc : Type} {cfg : Cfg Osc} {s : State.Of Osc}

/-- The scale `vol * g` is at most `VOL_MAX * GAIN_ONE`, the divisor of R105. -/
theorem scale_le {vol g : Nat} (hvol : vol ≤ volMax) (hg : g ≤ gainOne) : ((vol * g : Nat) : Int) ≤ 32768 := by
  have : vol * g ≤ 128 * 256 := Nat.mul_le_mul hvol hg
  omega

theorem contribution_eq_scaled (raw : Int) (vol g : Nat) :
    contribution raw vol g = raw * ((vol * g : Nat) : Int) / 32768 := by
  rw [contribution_eq, mul_assoc, Nat.cast_mul]

theorem contribution_of_nonneg {raw : Int} {vol g : Nat} (hvol : vol ≤ volMax) (hg : g ≤ gainOne) (h : 0 ≤ raw) :
    0 ≤ contribution raw vol g ∧ contribution raw vol g ≤ raw := by
  rw [contribution_eq_scaled]
  have hLow := Int.mul_nonneg h (Int.natCast_nonneg (vol * g))
  have hHigh := Int.mul_le_mul_of_nonneg_left (scale_le hvol hg) h
  omega

theorem contribution_of_nonpos {raw : Int} {vol g : Nat} (hvol : vol ≤ volMax) (hg : g ≤ gainOne) (h : raw ≤ 0) :
    raw ≤ contribution raw vol g ∧ contribution raw vol g ≤ 0 := by
  rw [contribution_eq_scaled]
  have hLow := Int.mul_le_mul_of_nonpos_left h (scale_le hvol hg)
  have hHigh := Int.mul_nonpos_of_nonpos_of_nonneg h (Int.natCast_nonneg (vol * g))
  omega

/-- The contribution of any raw sample fits in a sample (R106). -/
theorem contribution_fits {raw : Int} {vol g : Nat} (hvol : vol ≤ volMax) (hg : g ≤ gainOne) (h1 : -128 ≤ raw)
    (h2 : raw ≤ 127) : -128 ≤ contribution raw vol g ∧ contribution raw vol g ≤ 127 := by
  by_cases h : 0 ≤ raw
  · have := contribution_of_nonneg hvol hg h
    omega
  · have := contribution_of_nonpos hvol hg (by omega : raw ≤ 0)
    omega

theorem rawValue_fits (raw : Option Sample) : -128 ≤ rawValue raw ∧ rawValue raw ≤ 127 := by
  cases raw with
  | none => decide
  | some x =>
    have := x.le_toInt
    have := x.toInt_lt
    change -128 ≤ x.toInt ∧ x.toInt ≤ 127
    omega

theorem voiceStep_contrib_fits (hValid : cfg.Valid) {v : Voice Osc} (hvol : v.vol.toNat ≤ volMax) :
    -128 ≤ (voiceStep cfg v).contrib ∧ (voiceStep cfg v).contrib ≤ 127 := by
  by_cases hDone : v.phase = .done
  · simp [voiceStep_of_done cfg hDone]
  · rw [voiceStep_of_live cfg hDone]
    obtain ⟨h1, h2⟩ := rawValue_fits (oscTick cfg v).2
    exact contribution_fits hvol (hValid.gain_le ..) h1 h2

theorem contribIn_fits (hValid : cfg.Valid) (h : Inv cfg s) (j : Nat) :
    -128 ≤ contribIn cfg s j ∧ contribIn cfg s j ≤ 127 := by
  unfold contribIn
  split
  case h_1 v hv =>
    split
    · exact voiceStep_contrib_fits hValid (h.voice? hv).vol_le
    · decide
  case h_2 => decide

theorem sum_map_fits {f : Nat → Int} (hf : ∀ j, -128 ≤ f j ∧ f j ≤ 127) (l : List Nat) :
    -128 * (l.length : Int) ≤ (l.map f).sum ∧ (l.map f).sum ≤ 127 * l.length := by
  induction l with
  | nil => simp
  | cons j l ih =>
    have := hf j
    simp only [List.map_cons, List.sum_cons, List.length_cons, Nat.cast_succ]
    omega

/-- Settles O36: the visits done so far are at most sixteen, each adding what fits in a sample. -/
theorem accumulatorNeverOverflows : Obligations.AccumulatorNeverOverflows := by
  intro Osc cfg s k hValid h
  have hSub : ((descending s.nv).take k).Sublist (descending s.nv) := List.take_sublist ..
  have hLen : ((descending s.nv).take k).length ≤ 16 := by
    refine hSub.length_le.trans ?_
    rw [descending_eq_reverse_range, List.length_reverse, List.length_range]
    exact h.nv_le
  rw [mixAlong_mixStart_acc cfg s (hSub.nodup (nodup_descending _))]
  have := sum_map_fits (contribIn_fits hValid h) ((descending s.nv).take k)
  omega

end Sys2Proof.Machine
end

section
/-! What an operation may depend on and may write (R21, R24, R33, R34). -/

namespace Sys2Proof.Machine

/-- Settles O44: ENABLE and DISABLE write no record, LOAD writes one, and a TICK leaves a DONE voice as it is (R109). -/
theorem onlyLoadLeavesDone : Obligations.OnlyLoadLeavesDone := by
  intro i s t j v v' h hv hv' hDone hLive
  have hChanged : t.voice? j ≠ s.voice? j := by
    rw [hv, hv', ne_eq, Option.some_inj]
    rintro rfl
    exact hLive hDone
  obtain rfl := eq_resultOn_of_exec h
  cases i with
  | load k freq vol durm1 rel =>
    refine ⟨k, freq, vol, durm1, rel, rfl, of_not_not fun hk => hChanged ?_⟩
    exact (loaded_voice? ..).trans (if_neg hk)
  | enable k => exact absurd rfl hChanged
  | disable k => exact absurd rfl hChanged
  | tick =>
    refine absurd ?_ hChanged
    simp [resultOn, ticked_voice?, hv, voiceStep_of_done evm hDone]

/-- Settles O47: what an operation makes of a voice and its bit is a function of that voice and that bit. -/
theorem voicesShareNothing : Obligations.VoicesShareNothing := by
  intro i s s' t t' j hVoice hBit h h'
  obtain rfl := eq_resultOn_of_exec h
  obtain rfl := eq_resultOn_of_exec h'
  cases i with
  | load k freq vol durm1 rel => simp only [resultOn, loaded_voice?, loaded_enabled, hVoice, hBit, and_self]
  | enable k =>
    simp only [resultOn, State.Of.withActivity_voice?, State.Of.withActivity_enabled, State.Of.setMask_voice?,
      State.Of.setMask_enabled _ _ k.isLt, hVoice, hBit, and_self]
  | disable k =>
    simp only [resultOn, State.Of.withActivity_voice?, State.Of.withActivity_enabled, State.Of.clearMask_voice?,
      State.Of.clearMask_enabled, hVoice, hBit, and_self]
  | tick =>
    simp only [resultOn, ticked_voice?, ticked_enabled, retires_eq_any, mixStart_tickOf, hVoice, hBit, and_self]

/-- With another clip count an operation leaves the same state but for the count. -/
theorem resultOn_clipcnt {Osc : Type} (cfg : Cfg Osc) (s : State.Of Osc) (c : BitVec 16) (i : Instr) :
    ∃ c', resultOn cfg { s with clipcnt := c } i = { resultOn cfg s i with clipcnt := c' } := by
  cases i with
  | load => exact ⟨c, rfl⟩
  | enable => exact ⟨c, rfl⟩
  | disable => exact ⟨c, rfl⟩
  | tick => exact ⟨countClip c (mixed cfg s).acc, rfl⟩

/-- Settles O46: whether an operation is refused depends on the number of voices alone, and the state it leaves has the
count in `clipcnt` only. -/
theorem clipCountInfluencesNothing : Obligations.ClipCountInfluencesNothing := by
  intro i s c
  obtain ⟨c', hc'⟩ := resultOn_clipcnt evm s c i
  have hnv : ({ s with clipcnt := c } : State).nv = s.nv := rfl
  simp only [exec_eq_execOn, execOn_eq, hnv, hc']
  cases violationOf s.nv i with
  | none =>
    refine ⟨fun t ht => ?_, nofun⟩
    cases ht
    exact ⟨c', rfl⟩
  | some r => exact ⟨nofun, fun _ hr => hr⟩

/-- Settles O45: the state each operation leaves shows it. -/
theorem onlyTickWritesSampleAndClipCount : Obligations.OnlyTickWritesSampleAndClipCount := by
  intro i s t h
  obtain rfl := eq_resultOn_of_exec h
  cases i with
  | load => exact ⟨fun _ => ⟨rfl, rfl⟩, by simp [resultOn, State.Of.sampleValid, loaded]⟩
  | enable => exact ⟨fun _ => ⟨rfl, rfl⟩, by simp [resultOn, State.Of.sampleValid, Activity.quiet]⟩
  | disable => exact ⟨fun _ => ⟨rfl, rfl⟩, by simp [resultOn, State.Of.sampleValid, Activity.quiet]⟩
  | tick => exact ⟨fun hne => absurd rfl hne, by simp [resultOn, State.Of.sampleValid]⟩

end Sys2Proof.Machine
end

section
/-! Renaming oscillator states commutes with every operation (R26, R104). -/

namespace Sys2Proof.Machine

variable {A B : Type} (f : A → B)

/-- The answer of a voice's step with its oscillator state renamed. -/
def VoiceTick.mapOsc (t : VoiceTick A) : VoiceTick B :=
  { voice := t.voice.mapOsc f, contrib := t.contrib, done := t.done, raw := t.raw }

/-- The mixer with every oscillator state renamed. -/
def Mix.mapOsc (m : Mix A) : Mix B :=
  { voices := m.voices.map (Voice.mapOsc f), mask := m.mask, acc := m.acc, calls := m.calls }

@[simp] theorem State.Of.mapOsc_nv (s : State.Of A) : (s.mapOsc f).nv = s.nv := List.length_map _

@[simp] theorem afterReset_mapOsc (nv : Nat) (o : A) :
    (State.Of.afterReset nv o).mapOsc f = State.Of.afterReset nv (f o) := by
  simp [State.Of.mapOsc, State.Of.afterReset, Voice.mapOsc, Voice.atReset]

theorem observe_mapOsc (s : State.Of A) : (s.mapOsc f).observe = s.observe := by
  simp only [State.Of.observe, State.Of.mapOsc, List.map_map]
  rfl

theorem map_mapOsc_modify {g : Voice A → Voice A} {g' : Voice B → Voice B}
    (hg : ∀ v, g' (v.mapOsc f) = (g v).mapOsc f) (l : List (Voice A)) (i : Nat) :
    (l.modify i g).map (Voice.mapOsc f) = (l.map (Voice.mapOsc f)).modify i g' := by
  induction l generalizing i with
  | nil => simp
  | cons v l ih => cases i <;> simp [hg, ih]

/-! ### The operations of two instances whose oscillators `f` carries to each other -/

section Renames

variable {f} {a : Cfg A} {b : Cfg B} (h : Cfg.Renames f a b)
include h

theorem Cfg.Renames.phaseAt : phaseAt b = phaseAt a := by
  funext u rel dur
  simp only [Machine.phaseAt, h.attackUnits, h.decayUnits]

theorem Cfg.Renames.loadVoice (freq : Freq) (vol durm1 rel : BitVec 8) (v : Voice A) :
    loadVoice b freq vol durm1 rel (v.mapOsc f) = (loadVoice a freq vol durm1 rel v).mapOsc f := by
  simp [Machine.loadVoice, Voice.mapOsc, h.phaseAt, h.oscLoad]

theorem Cfg.Renames.oscTick (v : Voice A) :
    oscTick b (v.mapOsc f) = (f (oscTick a v).1, (oscTick a v).2) := by
  unfold Machine.oscTick
  simp only [Voice.mapOsc, h.oscStep]
  split <;> rfl

theorem Cfg.Renames.voiceContrib (v : Voice A) : voiceContrib b (v.mapOsc f) = voiceContrib a v := by
  simp only [Machine.voiceContrib, h.oscTick, h.envGain]
  rfl

theorem Cfg.Renames.advance (v : Voice A) : advance b (v.mapOsc f) = (advance a v).mapOsc f := by
  unfold Machine.advance
  simp only [Voice.mapOsc, h.timeUnit, h.phaseAt]
  split <;> rfl

theorem Cfg.Renames.voiceStep (v : Voice A) : voiceStep b (v.mapOsc f) = (voiceStep a v).mapOsc f := by
  by_cases hDone : v.phase = .done
  · rw [voiceStep_of_done a hDone, voiceStep_of_done b (v := v.mapOsc f) hDone]
    rfl
  · have hAdvance : Machine.advance b { v.mapOsc f with osc := f (Machine.oscTick a v).1 } =
        (Machine.advance a { v with osc := (Machine.oscTick a v).1 }).mapOsc f :=
      h.advance { v with osc := (Machine.oscTick a v).1 }
    rw [voiceStep_of_live a hDone, voiceStep_of_live b (v := v.mapOsc f) hDone, h.voiceContrib, h.oscTick, hAdvance]
    rfl

theorem Cfg.Renames.mixVoice (m : Mix A) (i : Nat) : mixVoice b (m.mapOsc f) i = (mixVoice a m i).mapOsc f := by
  have hVoice : (m.mapOsc f).voices[i]? = (m.voices[i]?).map (Voice.mapOsc f) := List.getElem?_map ..
  unfold Machine.mixVoice
  rw [hVoice]
  change (if m.mask.getLsbD i then _ else _) = _
  cases m.mask.getLsbD i with
  | false => rfl
  | true =>
    cases m.voices[i]? with
    | none => rfl
    | some v =>
      simp [h.voiceStep, Mix.mapOsc, VoiceTick.mapOsc]

theorem Cfg.Renames.mixed (s : State.Of A) : mixed b (s.mapOsc f) = (mixed a s).mapOsc f := by
  simp only [Machine.mixed, State.Of.mapOsc_nv]
  exact List.foldl_hom (Mix.mapOsc f) (init := mixStart s) h.mixVoice

theorem Cfg.Renames.ticked (s : State.Of A) : ticked b (s.mapOsc f) = (ticked a s).mapOsc f := by
  simp only [Machine.ticked, h.mixed]
  rfl

theorem Cfg.Renames.loaded (v : VoiceIdx) (freq : Freq) (vol durm1 rel : BitVec 8) (s : State.Of A) :
    loaded b v freq vol durm1 rel (s.mapOsc f) = (loaded a v freq vol durm1 rel s).mapOsc f := by
  have hVoices := map_mapOsc_modify f (h.loadVoice freq vol durm1 rel) s.voices v.toNat
  simp only [Machine.loaded, State.Of.withActivity, State.Of.setMask, State.Of.updateVoice, State.Of.mapOsc, hVoices]

theorem Cfg.Renames.resetEvent (s : State.Of A) : resetEvent b (s.mapOsc f) = (resetEvent a s).mapOsc f := by
  simp only [Machine.resetEvent, State.Of.mapOsc, List.map_map, h.oscReset]
  rfl

theorem Cfg.Renames.resultOn (s : State.Of A) (i : Instr) :
    resultOn b (s.mapOsc f) i = (resultOn a s i).mapOsc f := by
  cases i with
  | load v freq vol durm1 rel => exact h.loaded v freq vol durm1 rel s
  | enable => rfl
  | disable => rfl
  | tick => exact h.ticked s

theorem Cfg.Renames.execOn (i : Instr) (s : State.Of A) :
    execOn b i (s.mapOsc f) = renameNext f (execOn a i s) := by
  rw [execOn_eq, execOn_eq, State.Of.mapOsc_nv, h.resultOn]
  cases violationOf s.nv i <;> rfl

theorem Cfg.Renames.runEventBy (e : Event) (s : State.Of A) :
    runEventBy b (Machine.execOn b) e (s.mapOsc f) = renameNext f (runEventBy a (Machine.execOn a) e s) := by
  cases e with
  | idle => rfl
  | reset => exact congrArg Host.Outcome.next (h.resetEvent s)
  | op w =>
    simp only [Machine.runEventBy, runWordBy]
    cases decodeWord w with
    | ok i => exact h.execOn i s
    | error => rfl

end Renames

/-- Settles O59: each event commutes with the renaming, and an observation has no oscillator state in it. -/
theorem oscillatorStateNeverInspected : Obligations.OscillatorStateNeverInspected := by
  intro A B f a b h
  refine ⟨fun nv => ?_, fun s => ?_, observe_mapOsc f⟩
  · rw [afterReset_mapOsc, h.oscReset]
  · exact h.runEventBy (nextEvent s.requests).1 (s.withRequests (nextEvent s.requests).2)

end Sys2Proof.Machine
end

section
/-! Words and bytes: the decoder undoes the encoder (R85, R88, R89). -/

namespace Sys2Proof

theorem decodeWord_encode (i : Instr) : decodeWord (encode i) = .ok i := by
  cases i with
  | load v freq vol durm1 rel => simp [decodeWord, encode]
  | enable v => simp [decodeWord, encode, opEnable, opLoad]
  | disable v => simp [decodeWord, encode, opDisable, opEnable, opLoad]
  | tick => rfl

/-- The byte decoder reads the six bytes of a word as that word (R55). -/
theorem decodeBytes_bytesOfWord {w : OpWord} {i : Instr} (h : decodeWord w = .ok i) (rest : List Byte) :
    decodeBytes (bytesOfWord w ++ rest) = .ok (i, rest) := by
  simp only [bytesOfWord, List.cons_append, List.nil_append, decodeBytes, wordOfBytes_byteOfWord, h]

/-- Settles O1: the operation code selects the operation, and the fields read back what was put in them. -/
theorem decodeOfEncode : Obligations.DecodeOfEncode := fun i rest =>
  ⟨decodeWord_encode i, decodeBytes_bytesOfWord (decodeWord_encode i) rest⟩

end Sys2Proof
end

section
/-! What an operation with legal operands does: it completes, and it writes its own voice and that voice's bit only. -/

namespace Sys2Proof.Machine

variable {Osc : Type} {cfg : Cfg Osc} {s : State.Of Osc}

theorem violationOf_eq_none_iff {nv : Nat} {i : Instr} : violationOf nv i = none ↔ i.wellFormed nv = true := by
  cases i with
  | load v freq vol durm1 rel =>
    by_cases hv : v.toNat < nv <;> simp [violationOf, Instr.wellFormed, hv]
  | enable v => simp [violationOf, Instr.wellFormed]
  | disable v => simp [violationOf, Instr.wellFormed]
  | tick => simp [violationOf, Instr.wellFormed]

theorem resultOn_requests (i : Instr) : (resultOn cfg s i).requests = s.requests := by
  cases i <;> rfl

/-- An operation that addresses a voice leaves every other voice and bit as they were (R21, R32). -/
theorem resultOn_of_ne {i : Instr} {a k : Nat} (ha : i.voice? = some a) (hk : a ≠ k) :
    (resultOn cfg s i).voice? k = s.voice? k ∧ (resultOn cfg s i).enabled k = s.enabled k := by
  cases i with
  | load v freq vol durm1 rel =>
    cases ha
    simp [resultOn, loaded_voice?, loaded_enabled, hk]
  | enable v =>
    cases ha
    simp [resultOn, State.Of.setMask_enabled _ _ v.isLt, hk]
  | disable v =>
    cases ha
    simp [resultOn, State.Of.clearMask_enabled, hk]
  | tick => cases ha

theorem exec_of_wellFormed {s : State} {i : Instr} (h : i.wellFormed s.nv = true) :
    exec i s = .next (resultOn evm s i) := by
  rw [exec_eq_execOn, execOn_eq, violationOf_eq_none_iff.2 h]
  rfl

theorem wellFormed_of_exec {s t : State} {i : Instr} (h : exec i s = .next t) : i.wellFormed s.nv = true := by
  rw [exec_eq_execOn, execOn_eq] at h
  refine violationOf_eq_none_iff.1 ?_
  cases hi : violationOf s.nv i with
  | none => rfl
  | some r => rw [hi] at h; cases h

theorem exec_nv {s t : State} {i : Instr} (h : exec i s = .next t) : t.nv = s.nv := by
  rw [eq_resultOn_of_exec h, resultOn_nv]

/-- An operation that completed completes again (R161). -/
theorem exec_again {s t : State} {i : Instr} (h : exec i s = .next t) : exec i t = .next (resultOn evm t i) :=
  exec_of_wellFormed (exec_nv h ▸ wellFormed_of_exec h)

end Sys2Proof.Machine
end

section
/-! An operation repeated (R58). -/

namespace Sys2Proof.Machine

variable {Osc : Type} (cfg : Cfg Osc) (s : State.Of Osc)

@[simp] theorem maskSet_maskSet (m : BitVec 16) (i : Nat) : maskSet (maskSet m i) i = maskSet m i := by
  simp [maskSet, BitVec.or_assoc]

@[simp] theorem maskClear_maskClear (m : BitVec 16) (i : Nat) : maskClear (maskClear m i) i = maskClear m i := by
  simp [maskClear, BitVec.and_assoc]

/-- A second LOAD writes the same frame and passes the oscillator state through `OscLoad` once more (R112). -/
theorem loaded_loaded (v : VoiceIdx) (freq : Freq) (vol durm1 rel : BitVec 8) :
    loaded cfg v freq vol durm1 rel (loaded cfg v freq vol durm1 rel s) =
      (loaded cfg v freq vol durm1 rel s).updateVoice v.toNat fun x => { x with osc := cfg.oscLoad x.osc freq } := by
  simp only [loaded, State.Of.withActivity, State.Of.setMask, State.Of.updateVoice, maskSet_maskSet,
    List.modify_modify_eq]
  rfl

/-- Settles O19: a bit set or cleared again stays as it is, and the frame of a LOAD is copied in again. -/
theorem repeatedOperationsAreIdempotent : Obligations.RepeatedOperationsAreIdempotent := by
  refine ⟨fun s t v h => ?_, fun s t v h => ?_, fun s t v freq vol durm1 rel h => ?_⟩
  · rw [exec_again h, eq_resultOn_of_exec h]
    simp [resultOn, State.Of.withActivity, State.Of.setMask]
  · rw [exec_again h, eq_resultOn_of_exec h]
    simp [resultOn, State.Of.withActivity, State.Of.clearMask]
  · rw [exec_again h, eq_resultOn_of_exec h]
    exact congrArg Host.Outcome.next (loaded_loaded evm s v freq vol durm1 rel)

end Sys2Proof.Machine
end

section
/-! Operations on different voices (R60). -/

namespace Sys2Proof.Machine

variable {Osc : Type}

/-- States with the same registers and requests are the same but for port activity. -/
theorem still_eq_of_registers {t u : State.Of Osc} (hVoice : ∀ k, t.voice? k = u.voice? k)
    (hBit : ∀ k, t.enabled k = u.enabled k) (hClip : t.clipcnt = u.clipcnt) (hOut : t.out = u.out)
    (hRequests : t.requests = u.requests) : t.still = u.still := by
  have hVoices : t.voices = u.voices := List.ext_getElem? hVoice
  have hMask : t.mask = u.mask := BitVec.eq_of_getLsbD_eq fun k _ => hBit k
  simp only [State.Of.still, State.Of.withActivity, hVoices, hMask, hClip, hOut, hRequests]

/-- The operation on another voice may come before or after: the voice and bit it does not address are the same. -/
theorem exec_exec_of_ne {s si sj sij sji : State} {i j : Instr} {a k : Nat} (ha : i.voice? = some a) (hk : a ≠ k)
    (hi : exec i s = .next si) (hij : exec j si = .next sij) (hj : exec j s = .next sj)
    (hji : exec i sj = .next sji) : sij.voice? k = sji.voice? k ∧ sij.enabled k = sji.enabled k := by
  obtain ⟨hVoice, hBit⟩ : si.voice? k = s.voice? k ∧ si.enabled k = s.enabled k :=
    eq_resultOn_of_exec hi ▸ resultOn_of_ne ha hk
  obtain ⟨hVoice', hBit'⟩ : sji.voice? k = sj.voice? k ∧ sji.enabled k = sj.enabled k :=
    eq_resultOn_of_exec hji ▸ resultOn_of_ne ha hk
  rw [hVoice', hBit']
  exact voicesShareNothing j si s sij sj k hVoice hBit hij hj

theorem execAll_pair {s t u : State} {i j : Instr} (hi : exec i s = .next t) (hj : exec j t = .next u) :
    execAll [i, j] s = .next u := by
  simp only [execAll, hi, hj]

theorem exec_keeps_blockwide {s t : State} {i : Instr} {a : Nat} (ha : i.voice? = some a) (h : exec i s = .next t) :
    t.clipcnt = s.clipcnt ∧ t.out = s.out ∧ t.requests = s.requests := by
  have hTick : i ≠ .tick := by rintro rfl; cases ha
  obtain ⟨hOut, hClip⟩ := (onlyTickWritesSampleAndClipCount i s t h).1 hTick
  exact ⟨hClip, hOut, eq_resultOn_of_exec h ▸ resultOn_requests i⟩

/-- Two operations that address a voice each leave the block-wide registers and the requests. -/
theorem exec_exec_keeps_blockwide {s t u : State} {i j : Instr} {a b : Nat} (ha : i.voice? = some a)
    (hb : j.voice? = some b) (hi : exec i s = .next t) (hj : exec j t = .next u) :
    u.clipcnt = s.clipcnt ∧ u.out = s.out ∧ u.requests = s.requests := by
  obtain ⟨hClip, hOut, hRequests⟩ := exec_keeps_blockwide ha hi
  obtain ⟨hClip', hOut', hRequests'⟩ := exec_keeps_blockwide hb hj
  exact ⟨hClip'.trans hClip, hOut'.trans hOut, hRequests'.trans hRequests⟩

/-- Settles O21: each voice is left alone by one of the two, which may then be moved past the other. -/
theorem differentVoicesCommute : Obligations.DifferentVoicesCommute := by
  intro s i j a b ha hb hab hi hj
  have hsi := exec_of_wellFormed hi
  have hsj := exec_of_wellFormed hj
  have hsij := exec_of_wellFormed (s := resultOn evm s i) (i := j) (exec_nv hsi ▸ hj)
  have hsji := exec_of_wellFormed (s := resultOn evm s j) (i := i) (exec_nv hsj ▸ hi)
  refine ⟨_, _, execAll_pair hsi hsij, execAll_pair hsj hsji, ?_⟩
  have hVoiceBit (k : Nat) :
      (resultOn evm (resultOn evm s i) j).voice? k = (resultOn evm (resultOn evm s j) i).voice? k ∧
      (resultOn evm (resultOn evm s i) j).enabled k = (resultOn evm (resultOn evm s j) i).enabled k := by
    by_cases hk : a = k
    · exact (exec_exec_of_ne hb (hk ▸ hab.symm) hsj hsji hsi hsij).imp Eq.symm Eq.symm
    · exact exec_exec_of_ne ha hk hsi hsij hsj hsji
  obtain ⟨hClip, hOut, hRequests⟩ := exec_exec_keeps_blockwide ha hb hsi hsij
  obtain ⟨hClip', hOut', hRequests'⟩ := exec_exec_keeps_blockwide hb ha hsj hsji
  exact still_eq_of_registers (fun k => (hVoiceBit k).1) (fun k => (hVoiceBit k).2) (hClip.trans hClip'.symm)
    (hOut.trans hOut'.symm) (hRequests.trans hRequests'.symm)

end Sys2Proof.Machine
end

section
/-! A step that takes an operation word, and the run of a host that keeps its duties (R56, R62, R166). -/

namespace Sys2Proof.Machine

/-- Settles O8: the first instant of the requests carries no reset, so its word is the next event. -/
theorem stepRunsDecodedOperation : Obligations.StepRunsDecodedOperation := by
  intro s r rest w i hRequests hRst hOp hDecode
  have hEvent : nextEvent s.requests = (.op w, if r.tick then { r with op := none } :: rest else rest) := by
    simp [hRequests, nextEvent, hRst, hOp]
  simp only [step, hEvent, runEvent, runEventBy, runWordBy, hDecode]

/-- A step leaves the requests it did not take. -/
theorem step_requests {s t : State} (h : step s = .next t) : t.requests = (nextEvent s.requests).2 := by
  obtain ⟨u, rfl, rfl | rfl | ⟨i, hi⟩⟩ := step_next h
  · rfl
  · rfl
  · rw [eq_resultOn_of_exec hi, resultOn_requests, State.Of.withRequests_requests]

/-- The word of an instant that keeps its duties is a legal operation (R62). -/
theorem Requests.dutiful_op {nv : Nat} {r : Requests} {w : OpWord} (h : r.dutiful nv = true) (hOp : r.op = some w) :
    ∃ i, decodeWord w = .ok i ∧ i.wellFormed nv = true := by
  unfold Requests.dutiful at h
  rw [hOp] at h
  cases hDecode : decodeWord w with
  | ok i => exact ⟨i, rfl, by simpa [hDecode] using h⟩
  | error e => simp [hDecode] at h

/-- Taking a request from a host that keeps its duties: an operation word is a legal operation, `tick_req` a TICK. -/
theorem nextEvent_op_of_dutiful {nv : Nat} {rs : List Requests} (h : ∀ r ∈ rs, r.dutiful nv = true) {w : OpWord}
    (hw : (nextEvent rs).1 = .op w) : ∃ i, decodeWord w = .ok i ∧ i.wellFormed nv = true := by
  obtain ⟨-, hEvent⟩ | ⟨r, rest, rfl, ⟨-, hEvent⟩ | ⟨-, x, hOp, hEvent⟩ | ⟨-, -, -, hEvent⟩ | ⟨-, -, -, hEvent⟩⟩ :=
    nextEvent_cases rs <;> rw [hEvent] at hw <;> cases hw
  · exact Requests.dutiful_op (h r List.mem_cons_self) hOp
  · exact ⟨.tick, decodeWord_encode .tick, rfl⟩

/-- What is left on the ports keeps the host's duties: a word taken leaves its instant without one. -/
theorem nextEvent_rest_dutiful {nv : Nat} {rs : List Requests} (h : ∀ r ∈ rs, r.dutiful nv = true) :
    ∀ r ∈ (nextEvent rs).2, r.dutiful nv = true := by
  obtain ⟨-, hEvent⟩ | ⟨r, rest, rfl, ⟨-, hEvent⟩ | ⟨-, x, -, hEvent⟩ | ⟨-, -, -, hEvent⟩ | ⟨-, -, -, hEvent⟩⟩ :=
    nextEvent_cases rs <;> rw [hEvent]
  · simp
  all_goals have hRest : ∀ q ∈ rest, q.dutiful nv = true := fun q hq => h q (List.mem_cons_of_mem r hq)
  · exact hRest
  · cases r.tick with
    | false => exact hRest
    | true => exact List.forall_mem_cons.2 ⟨rfl, hRest⟩
  · exact hRest
  · exact hRest

/-- A step of a host that keeps its duties has a next state, and the host goes on keeping them. -/
theorem step_of_dutiful {s : State} (h : s.hostDutiful) : ∃ t, step s = .next t ∧ t.hostDutiful := by
  have hNext : ∃ t, step s = .next t := by
    unfold step runEvent runEventBy
    cases hEvent : (nextEvent s.requests).1 with
    | idle => exact ⟨_, rfl⟩
    | reset => exact ⟨_, rfl⟩
    | op w =>
      obtain ⟨i, hDecode, hLegal⟩ := nextEvent_op_of_dutiful h hEvent
      simp only [runWordBy, hDecode]
      exact ⟨_, exec_of_wellFormed hLegal⟩
  obtain ⟨t, ht⟩ := hNext
  refine ⟨t, ht, ?_⟩
  unfold State.Of.hostDutiful
  rw [step_requests ht, stepKeepsVoiceCount s t ht]
  exact nextEvent_rest_dutiful h

/-- Settles O53, by induction on the number of steps. -/
theorem dutifulHostIsNeverRefused : Obligations.DutifulHostIsNeverRefused := by
  intro s h k
  induction k generalizing s with
  | zero => exact ⟨s, rfl⟩
  | succ k ih =>
    obtain ⟨t, ht, hDutiful⟩ := step_of_dutiful h
    rw [core_run_of_step ht]
    exact ih t hDutiful

end Sys2Proof.Machine
end

section
/-! The output ports (R51). -/

namespace Sys2Proof.Machine

/-- Bit `i` of `mask_out` is the enable bit of voice `i`, for every voice that exists (R51). -/
theorem State.Of.maskOut_getLsbD {Osc : Type} {s : State.Of Osc} {i : Nat} (h : i < s.nv) :
    s.maskOut.getLsbD i = s.enabled i := by
  simp [State.Of.maskOut, State.Of.enabled, h]

/-- Settles O54: a voice that exists has an index below `NV`, and its ports show its phase. -/
theorem portsShowRegisters : Obligations.PortsShowRegisters := by
  intro s i v hv
  refine ⟨rfl, rfl, State.Of.maskOut_getLsbD (State.Of.voice?_lt hv), ?_, ?_⟩
  · simp [State.Of.doneOut, hv, Voice.isDone]
  · simp only [State.Of.phaseOut, hv, Option.map_some]
    cases v.phase <;> rfl

end Sys2Proof.Machine
end


section
/-! The operation code of a word decides its decoding (R74, R80, R81, R85). -/

namespace Sys2Proof

variable {w : OpWord}

/-- The match patterns of R75 to R78 compare the operation code. -/
theorem opField_of_and_eq {p : OpWord} (h : w &&& 0xF00000000000#48 = p) : opField w = opField p := by
  have hMask : opField 0xF00000000000#48 = BitVec.allOnes 4 := by decide
  calc opField w = opField w &&& opField 0xF00000000000#48 := by rw [hMask, BitVec.and_allOnes]
    _ = opField (w &&& 0xF00000000000#48) := BitVec.extractLsb'_and.symm
    _ = opField p := congrArg opField h

theorem decodeWord_of_opLoad (h : opField w = opLoad) :
    decodeWord w = .ok (.load (voiceField w) (freqField w) (volField w) (durm1Field w) (relField w)) := by
  rw [decodeWord, if_pos h]

theorem decodeWord_of_opEnable (h : opField w = opEnable) : decodeWord w = .ok (.enable (voiceField w)) := by
  rw [decodeWord, if_neg (by rw [h]; decide), if_pos h]

theorem decodeWord_of_opDisable (h : opField w = opDisable) : decodeWord w = .ok (.disable (voiceField w)) := by
  rw [decodeWord, if_neg (by rw [h]; decide), if_neg (by rw [h]; decide), if_pos h]

theorem decodeWord_of_opTick (h : opField w = opTick) : decodeWord w = .ok .tick := by
  rw [decodeWord, if_neg (by rw [h]; decide), if_neg (by rw [h]; decide), if_neg (by rw [h]; decide), if_pos h]

/-- None of the four operation codes is reserved (R81). -/
theorem decodeWord_of_reserved (h : (opField w).toNat = 0 ∨ 5 ≤ (opField w).toNat) :
    decodeWord w = .error (.reservedOp (opField w)) := by
  have hNe {op : BitVec 4} (hop : 1 ≤ op.toNat ∧ op.toNat ≤ 4) : opField w ≠ op := by
    rintro rfl
    omega
  rw [decodeWord, if_neg (hNe (by decide)), if_neg (hNe (by decide)), if_neg (hNe (by decide)),
    if_neg (hNe (by decide))]

/-- Outside the reserved codes the four operations are all there is (R81). -/
theorem exists_decodeWord_of_not_reserved (h : ¬ ((opField w).toNat = 0 ∨ 5 ≤ (opField w).toNat)) :
    ∃ i, decodeWord w = .ok i := by
  obtain hop | hop | hop | hop :
      (opField w).toNat = 1 ∨ (opField w).toNat = 2 ∨ (opField w).toNat = 3 ∨ (opField w).toNat = 4 := by omega
  · exact ⟨_, decodeWord_of_opLoad (BitVec.eq_of_toNat_eq hop)⟩
  · exact ⟨_, decodeWord_of_opEnable (BitVec.eq_of_toNat_eq hop)⟩
  · exact ⟨_, decodeWord_of_opDisable (BitVec.eq_of_toNat_eq hop)⟩
  · exact ⟨_, decodeWord_of_opTick (BitVec.eq_of_toNat_eq hop)⟩

/-- A word with an empty frame has zeros in the 40 bits of the frame (R88). -/
theorem assembleWord_zero_and_frameMask (op : BitVec 4) (v : VoiceIdx) :
    assembleWord op v 0 &&& 0x00FFFFFFFFFF#48 = 0 := by
  have hMask : 0x00FFFFFFFFFF#48 = 0#4 ++ (0#4 ++ BitVec.allOnes 40) := by decide
  rw [assembleWord, hMask, BitVec.and_append, BitVec.and_append]
  simp

/-- Settles O2: the fields a LOAD reads are the whole word. -/
theorem loadWordKeepsEveryBit : Obligations.LoadWordKeepsEveryBit := by
  intro w hMatch
  have hop : opField w = opLoad := opField_of_and_eq hMatch
  have hEncode : encode (.load (voiceField w) (freqField w) (volField w) (durm1Field w) (relField w)) = w := by
    rw [encode, ← hop, assembleWord_fields]
  exact ⟨_, _, _, _, _, decodeWord_of_opLoad hop, hEncode⟩

/-- Settles O3: the pattern fixes the operation code, and the canonical words carry an empty frame. -/
theorem ignoredBitsChangeNothing : Obligations.IgnoredBitsChangeNothing := fun _ =>
  ⟨fun hMatch => decodeWord_of_opEnable (opField_of_and_eq hMatch),
    fun hMatch => decodeWord_of_opDisable (opField_of_and_eq hMatch),
    fun hMatch => decodeWord_of_opTick (opField_of_and_eq hMatch),
    fun v => ⟨assembleWord_zero_and_frameMask opEnable v, assembleWord_zero_and_frameMask opDisable v⟩,
    by decide⟩

end Sys2Proof

namespace Sys2Proof.Machine

theorem runWord_of_ok {w : OpWord} {i : Instr} (h : decodeWord w = .ok i) (s : State) : runWord w s = exec i s := by
  simp only [runWord, runWordBy, h]

theorem runWord_of_error {w : OpWord} {e : DecodeError} (h : decodeWord w = .error e) (s : State) :
    runWord w s = .refused .reservedOp := by
  simp only [runWord, runWordBy, h]

/-- Settles O4: running a word follows its decoding. -/
theorem reservedCodesAreNoOperation : Obligations.ReservedCodesAreNoOperation := by
  intro w s
  split_ifs with hReserved
  · have hDecode := decodeWord_of_reserved hReserved
    exact ⟨hDecode, runWord_of_error hDecode s⟩
  · obtain ⟨i, hDecode⟩ := exists_decodeWord_of_not_reserved hReserved
    exact ⟨i, hDecode, runWord_of_ok hDecode s⟩

theorem tickWord_eq : tickWord = 0x400000000000#48 := by decide

/-- Settles O9: the next event of both instants is the canonical TICK word. -/
theorem tickRequestIsTickWord : Obligations.TickRequestIsTickWord := by
  intro s rest
  have hWord : step (s.withRequests (presentWord tickWord :: rest)) = exec .tick (s.withRequests rest) :=
    stepRunsDecodedOperation _ (presentWord tickWord) rest tickWord .tick rfl rfl rfl (decodeWord_encode .tick)
  have hRequest : step (s.withRequests ({ rst := false, op := none, tick := true } :: rest)) =
      step (s.withRequests (presentWord tickWord :: rest)) := rfl
  exact ⟨tickWord_eq ▸ hRequest, hRequest.trans hWord⟩

end Sys2Proof.Machine
end

section
/-! Canonical words as numbers, and what the assembler writes and rejects (R70, R72, R86 to R88, R90). -/

namespace Sys2Proof

theorem toNat_append_eq_add {m n : Nat} (x : BitVec m) (y : BitVec n) :
    (x ++ y).toNat = x.toNat * 2 ^ n + y.toNat := by
  rw [BitVec.toNat_append, ← Nat.shiftLeft_add_eq_or_of_lt y.isLt, Nat.shiftLeft_eq]

/-- A value that fits its field is read back from it. -/
theorem toNat_ofNat_of_lt {n x : Nat} (h : x < 2 ^ n) : (BitVec.ofNat n x).toNat = x := by
  rw [BitVec.toNat_ofNat, Nat.mod_eq_of_lt h]

theorem assembleWord_toNat (op : BitVec 4) (v : VoiceIdx) (f : FrameWord) :
    (assembleWord op v f).toNat = op.toNat * 2 ^ 44 + v.toNat * 2 ^ 40 + f.toNat := by
  rw [assembleWord, toNat_append_eq_add, toNat_append_eq_add, Nat.add_assoc]

theorem encodeFrame_toNat (freq : Freq) (vol durm1 rel : BitVec 8) :
    (encodeFrame freq vol durm1 rel).toNat =
      freq.toNat * 2 ^ 24 + vol.toNat * 2 ^ 16 + durm1.toNat * 2 ^ 8 + rel.toNat := by
  simp only [encodeFrame, toNat_append_eq_add, Nat.add_assoc]

theorem opLoad_toNat : opLoad.toNat = 1 := rfl
theorem opEnable_toNat : opEnable.toNat = 2 := rfl
theorem opDisable_toNat : opDisable.toNat = 3 := rfl

theorem encode_load_toNat (v : VoiceIdx) (freq : Freq) (vol durm1 rel : BitVec 8) :
    (encode (.load v freq vol durm1 rel)).toNat =
      1 * 2 ^ 44 + v.toNat * 2 ^ 40 + freq.toNat * 2 ^ 24 + vol.toNat * 2 ^ 16 + durm1.toNat * 2 ^ 8 + rel.toNat := by
  simp only [encode, assembleWord_toNat, encodeFrame_toNat, opLoad_toNat, Nat.add_assoc]

theorem encode_enable_toNat (v : VoiceIdx) : (encode (.enable v)).toNat = 2 * 2 ^ 44 + v.toNat * 2 ^ 40 := by
  rw [encode, assembleWord_toNat, opEnable_toNat, BitVec.ofNat_eq_ofNat, BitVec.toNat_zero, Nat.add_zero]

theorem encode_disable_toNat (v : VoiceIdx) : (encode (.disable v)).toNat = 3 * 2 ^ 44 + v.toNat * 2 ^ 40 := by
  rw [encode, assembleWord_toNat, opDisable_toNat, BitVec.ofNat_eq_ofNat, BitVec.toNat_zero, Nat.add_zero]

theorem decodeWord_of_encode_eq {i : Instr} {w : OpWord} (h : encode i = w) : decodeWord w = .ok i :=
  h ▸ decodeWord_encode i

end Sys2Proof

namespace Sys2Proof.Machine

/-- The assembler accepts a LOAD exactly when every value fits its field, a duration as its predecessor (R73, R86). -/
theorem asmLoad_eq (v freq vol dur rel : Nat) :
    asmLoad v freq vol dur rel =
      if v < 16 ∧ freq < 65536 ∧ vol < 256 ∧ 1 ≤ dur ∧ dur ≤ 256 ∧ rel < 256 then
        some (.load (BitVec.ofNat 4 v) (BitVec.ofNat 16 freq) (BitVec.ofNat 8 vol) (BitVec.ofNat 8 (dur - 1))
          (BitVec.ofNat 8 rel))
      else none := by
  refine if_congr ?_ rfl rfl
  simp only [fitsField, Bool.and_eq_true, decide_eq_true_eq]
  omega

theorem asmVoice_of_lt (op : VoiceIdx → Instr) {v : Nat} (h : v < 16) :
    asmVoice op v = some (op (BitVec.ofNat 4 v)) := if_pos (decide_eq_true h)

theorem asmVoice_of_le (op : VoiceIdx → Instr) {v : Nat} (h : 16 ≤ v) : asmVoice op v = none :=
  if_neg (by simpa [fitsField] using h)

/-- Settles O6: a value that fits its field is read back from it, so the word is the formula of R88. -/
theorem assemblerWritesCanonicalWords : Obligations.AssemblerWritesCanonicalWords := by
  refine ⟨?load, ?loadRejected, ?voice, ?voiceRejected, ?tick⟩
  case load =>
    intro v freq vol dur rel hv hfreq hvol hdur hdur' hrel
    refine ⟨_, by rw [assemble, asmLoad_eq, if_pos ⟨hv, hfreq, hvol, hdur, hdur', hrel⟩]; rfl, ?_⟩
    have hdurm1 : dur - 1 < 256 := by omega
    rw [encode_load_toNat, toNat_ofNat_of_lt hv, toNat_ofNat_of_lt hfreq,
      toNat_ofNat_of_lt hvol, toNat_ofNat_of_lt hdurm1, toNat_ofNat_of_lt hrel]
  case loadRejected =>
    intro v freq vol dur rel hUnfit
    rw [assemble, asmLoad_eq, if_neg hUnfit, Option.map_none]
  case voice =>
    intro v hv
    have hField : (BitVec.ofNat 4 v).toNat = v := toNat_ofNat_of_lt hv
    refine ⟨⟨_, by rw [assemble, asmVoice_of_lt _ hv]; rfl, ?_⟩, ⟨_, by rw [assemble, asmVoice_of_lt _ hv]; rfl, ?_⟩⟩
    · rw [encode_enable_toNat, hField]
    · rw [encode_disable_toNat, hField]
  case voiceRejected =>
    intro v hv
    rw [assemble, assemble, asmVoice_of_le _ hv, asmVoice_of_le _ hv]
    exact ⟨rfl, rfl⟩
  case tick => decide

/-- Settles O5: the words and bytes are computed; a word decodes to the operation it encodes. -/
theorem workedEncodingsHold : Obligations.WorkedEncodingsHold := by
  have hNote : encode (.load 0 440 128 7 6) = 0x1001B8800706#48 := by decide
  have hLongest : encode (.load 15 65535 0 255 255) = 0x1FFFFF00FFFF#48 := by decide
  have hPause : encode (.load 2 0 0 3 0) = 0x120000000300#48 := by decide
  have hEnable : encode (.enable 3) = 0x230000000000#48 := by decide
  have hDisable : encode (.disable 3) = 0x330000000000#48 := by decide
  have hTick : encode .tick = 0x400000000000#48 := tickWord_eq
  exact ⟨hNote, by decide, decodeWord_of_encode_eq hNote,
    hLongest, by decide, decodeWord_of_encode_eq hLongest,
    by decide, by decide, decodeWord_of_encode_eq hPause,
    hEnable, by decide, decodeWord_of_encode_eq hEnable,
    hDisable, by decide, decodeWord_of_encode_eq hDisable,
    hTick, by decide, decodeWord_of_encode_eq hTick,
    decodeWord_of_reserved (.inl rfl)⟩

theorem presentAll_replicate (n : Nat) (i : Instr) :
    presentAll (List.replicate n i) = List.replicate n (presentWord (encode i)) := List.map_replicate

/-- Settles O7: a release unit lies from `min(dur, 255)` on and before `dur`. -/
theorem pseudoOperationsExpand : Obligations.PseudoOperationsExpand := by
  refine ⟨fun _ _ => rfl, fun n => ?_, fun _ _ _ _ => rfl, fun Osc cfg u dur hdur => ?_, fun Osc cfg u => ?_⟩
  · rw [assemble, presentAll_replicate, show encode .tick = 0x400000000000#48 from tickWord_eq]
  · rw [ne_eq, phaseAt_eq_release, legatoRel]
    omega
  · rw [phaseAt_eq_release, legatoRel]
    omega

end Sys2Proof.Machine
end

section
/-! LOAD (R112, R113, R114): its result, its frame and its refusals on every instance, the phase it starts in, and what
a second LOAD leaves of the first. -/

namespace Sys2Proof.Machine

variable {Osc : Type} {cfg : Cfg Osc} {s : State.Of Osc} {v : VoiceIdx} {freq : Freq} {vol durm1 rel : BitVec 8}

theorem execOn_load_of_legal (hv : v.toNat < s.nv) (hvol : vol.toNat ≤ volMax) :
    execOn cfg (.load v freq vol durm1 rel) s = .next (loaded cfg v freq vol durm1 rel s) := by
  simp [execOn_eq, violationOf, hv, hvol, resultOn]

theorem execOn_load_of_no_voice (hv : s.nv ≤ v.toNat) :
    execOn cfg (.load v freq vol durm1 rel) s = .refused .voiceOutOfRange := by
  simp [execOn_eq, violationOf, Nat.not_lt.2 hv]

theorem execOn_load_of_loud (hv : v.toNat < s.nv) (hvol : volMax < vol.toNat) :
    execOn cfg (.load v freq vol durm1 rel) s = .refused .volumeOutOfRange := by
  simp [execOn_eq, violationOf, hv, Nat.not_le.2 hvol]

/-- The record a LOAD writes over `old`. -/
theorem loaded_voice?_same {old : Voice Osc} (h : s.voice? v.toNat = some old) :
    (loaded cfg v freq vol durm1 rel s).voice? v.toNat = some (loadVoice cfg freq vol durm1 rel old) := by
  rw [loaded_voice?, if_pos rfl, h, Option.map_some]

theorem loaded_enabled_same : (loaded cfg v freq vol durm1 rel s).enabled v.toNat = true := by
  simp [loaded_enabled]

/-- Settles O56: the record is the one `loadVoice` makes of the old, and what another index reads is not written. -/
theorem loadResultOnEveryInstance : Obligations.LoadResultOnEveryInstance := by
  intro Osc cfg s v freq vol durm1 rel
  refine ⟨fun old hold hvol => ?_, execOn_load_of_no_voice, execOn_load_of_loud⟩
  refine ⟨_, execOn_load_of_legal (State.Of.voice?_lt hold) hvol, loaded_voice?_same hold, loaded_enabled_same,
    fun j hj => ?_, loaded_nv .., rfl, rfl, rfl⟩
  exact resultOn_of_ne (i := .load v freq vol durm1 rel) rfl hj.symm

/-- Settles O14: the machine is the instance `evm`, and a LOAD shows one `OscLoad` call and no sample on the ports. -/
theorem loadResult : Obligations.LoadResult := by
  intro s v freq vol durm1 rel
  obtain ⟨hLegal, hNoVoice, hLoud⟩ := loadResultOnEveryInstance _ evm s v freq vol durm1 rel
  rw [← exec_eq_execOn] at hLegal hNoVoice hLoud
  refine ⟨fun old hold hvol => ?_, hNoVoice, hLoud⟩
  obtain ⟨t, ht, hVoice, hBit, hOther, hnv, hClip, hOut, hRequests⟩ := hLegal old hold hvol
  obtain rfl := eq_resultOn_of_exec ht
  exact ⟨_, ht, hVoice, hBit, hOther, hnv, hClip, hOut, hRequests, rfl, rfl⟩

/-- The phase of unit 0 of a note (R114): a duration is at least one unit, so it is never DONE. -/
theorem phaseAt_zero (rel durm1 : BitVec 8) :
    phaseAt cfg 0 rel.toNat (durOf durm1) =
      if rel = 0 then .release
      else if 1 ≤ cfg.attackUnits then .attack
      else if 1 ≤ cfg.decayUnits then .decay
      else .sustain := by
  have hDur : ¬ durOf durm1 ≤ 0 := Nat.not_succ_le_zero _
  have hRel : rel.toNat ≤ 0 ↔ rel = 0 := by
    rw [Nat.le_zero, ← BitVec.toNat_inj, BitVec.ofNat_eq_ofNat, BitVec.toNat_zero]
  rw [phaseAt, if_neg hDur]
  refine if_congr hRel rfl (ite_congr rfl (fun _ => rfl) fun hAttack => if_congr ?_ rfl rfl)
  omega

/-- Settles O15: the record read back is the one LOAD wrote, at unit 0. -/
theorem loadInitialPhase : Obligations.LoadInitialPhase := by
  intro s t v freq vol durm1 rel w h hw
  obtain rfl := eq_resultOn_of_exec h
  rw [resultOn, loaded_voice?, if_pos rfl] at hw
  obtain ⟨old, -, rfl⟩ := Option.map_eq_some_iff.1 hw
  exact phaseAt_zero rel durm1

/-- Settles O16: the second LOAD overwrites every register of the first; only `osc` is computed from its old value. -/
theorem secondLoadWins : Obligations.SecondLoadWins := by
  intro s v f1 f2 vol1 d1 r1 vol2 d2 r2 old hold hvol1 hvol2
  have hv := State.Of.voice?_lt hold
  have hFirst : exec (.load v f1 vol1 d1 r1) s = .next (loaded evm v f1 vol1 d1 r1 s) :=
    (exec_eq_execOn ..).trans (execOn_load_of_legal hv hvol1)
  have hSecond {u : State} (hu : u.nv = s.nv) :
      exec (.load v f2 vol2 d2 r2) u = .next (loaded evm v f2 vol2 d2 r2 u) :=
    (exec_eq_execOn ..).trans (execOn_load_of_legal (hu ▸ hv) hvol2)
  refine ⟨_, _, execAll_pair hFirst (hSecond (loaded_nv ..)), hSecond rfl, ?_⟩
  refine still_eq_of_registers (fun k => ?_) (fun k => ?_) rfl rfl rfl
  · by_cases hk : v.toNat = k
    · subst hk
      simp [loaded_voice?, State.Of.updateVoice_voice?, hold, loadVoice]
    · simp [loaded_voice?, State.Of.updateVoice_voice?, hk]
  · simp [loaded_enabled]

end Sys2Proof.Machine
end

section
/-! The phases of a note in its elapsed units (R101). -/

namespace Sys2Proof.Machine

variable {Osc : Type} {cfg : Cfg Osc} {u rel dur : Nat}

theorem phaseAt_eq_attack : phaseAt cfg u rel dur = .attack ↔ u < dur ∧ u < rel ∧ u < cfg.attackUnits := by
  unfold phaseAt
  split_ifs <;> simp <;> omega

theorem phaseAt_eq_decay :
    phaseAt cfg u rel dur = .decay ↔
      u < dur ∧ u < rel ∧ cfg.attackUnits ≤ u ∧ u < cfg.attackUnits + cfg.decayUnits := by
  unfold phaseAt
  split_ifs <;> simp <;> omega

theorem phaseAt_eq_sustain :
    phaseAt cfg u rel dur = .sustain ↔ u < dur ∧ u < rel ∧ cfg.attackUnits + cfg.decayUnits ≤ u := by
  unfold phaseAt
  split_ifs <;> simp <;> omega

theorem phaseAt_code (cfg : Cfg Osc) (u rel dur : Nat) :
    (phaseAt cfg u rel dur).code.toNat =
      if dur ≤ u then 4
      else if rel ≤ u then 3
      else if u < cfg.attackUnits then 0
      else if u < cfg.attackUnits + cfg.decayUnits then 1
      else 2 := by
  unfold phaseAt
  split_ifs <;> rfl

/-- Each test of R101 that holds at `u` and chooses a later phase holds from `u` on. -/
theorem phaseAt_code_mono (cfg : Cfg Osc) (rel dur : Nat) {u u' : Nat} (h : u ≤ u') :
    (phaseAt cfg u rel dur).code.toNat ≤ (phaseAt cfg u' rel dur).code.toNat := by
  rw [phaseAt_code, phaseAt_code]
  split_ifs <;> omega

/-- Settles O25: each phase holds exactly in its own range of units. -/
theorem phaseAtFollowsItsRule : Obligations.PhaseAtFollowsItsRule := fun _ cfg _ rel dur =>
  ⟨phaseAt_eq_done, phaseAt_eq_release, phaseAt_eq_attack, phaseAt_eq_decay, phaseAt_eq_sustain,
    fun _ h => phaseAt_code_mono cfg rel dur h⟩

/-- The phase of the next unit, from the phase of this one (R114): ATTACK follows ATTACK only, DECAY follows ATTACK or
DECAY only. -/
theorem phaseAt_succ (cfg : Cfg Osc) (u rel dur : Nat) :
    phaseAt cfg (u + 1) rel dur =
      if dur ≤ u + 1 then .done
      else if rel ≤ u + 1 then .release
      else if phaseAt cfg u rel dur = .attack ∧ u + 1 < cfg.attackUnits then .attack
      else if (phaseAt cfg u rel dur = .attack ∨ phaseAt cfg u rel dur = .decay) ∧
        u + 1 < cfg.attackUnits + cfg.decayUnits then .decay
      else .sustain := by
  simp only [phaseAt_eq_attack, phaseAt_eq_decay]
  rw [phaseAt]
  refine ite_congr rfl (fun _ => rfl) fun _ => ite_congr rfl (fun _ => rfl) fun _ => ?_
  refine ite_congr (propext ?_) (fun _ => rfl) fun _ => if_congr ?_ rfl rfl
  · omega
  · omega

end Sys2Proof.Machine
end

section
/-! One tick of one voice (R107, R108). -/

namespace Sys2Proof.Machine

variable {Osc : Type} {cfg : Cfg Osc} {v : Voice Osc}

/-- An advance neither reads nor writes the frequency and the oscillator state. -/
theorem advance_withFreqOsc (cfg : Cfg Osc) (v : Voice Osc) (f : Freq) (o : Osc) :
    advance cfg { v with freq := f, osc := o } = { advance cfg v with freq := f, osc := o } := by
  unfold advance
  split <;> rfl

/-- The registers of a live voice after its step. -/
theorem voiceStep_voice_of_live (h : v.phase ≠ .done) :
    (voiceStep cfg v).voice = { advance cfg v with freq := v.freq, osc := (oscTick cfg v).1 } := by
  rw [voiceStep_of_live cfg h]
  exact advance_withFreqOsc cfg v v.freq _

theorem voiceStep_contrib_of_live (h : v.phase ≠ .done) : (voiceStep cfg v).contrib = voiceContrib cfg v := by
  rw [voiceStep_of_live cfg h]

theorem voiceStep_raw_of_live (h : v.phase ≠ .done) : (voiceStep cfg v).raw = (oscTick cfg v).2 := by
  rw [voiceStep_of_live cfg h]

/-- The flag `d` tells the phase after the step. -/
theorem voiceStep_done (cfg : Cfg Osc) (v : Voice Osc) : (voiceStep cfg v).done = (voiceStep cfg v).voice.isDone := by
  by_cases h : v.phase = .done
  · simp [voiceStep_of_done cfg h, Voice.isDone, h]
  · rw [voiceStep_of_live cfg h]

theorem voiceStep_done_iff (cfg : Cfg Osc) (v : Voice Osc) :
    (voiceStep cfg v).done = true ↔ (voiceStep cfg v).voice.phase = .done := by
  rw [voiceStep_done, Voice.isDone, decide_eq_true_iff]

/-- The counters and the phase of a live voice after a tick that completes a time unit. -/
theorem voiceStep_of_boundary (h : v.phase ≠ .done) (hEu : v.eu.toNat < v.dur) (hEs : v.es = cfg.timeUnit - 1) :
    (voiceStep cfg v).voice.es = 0 ∧ (voiceStep cfg v).voice.eu.toNat = v.eu.toNat + 1 ∧
      (voiceStep cfg v).voice.phase = phaseAt cfg (v.eu.toNat + 1) v.rel.toNat v.dur := by
  rw [voiceStep_voice_of_live h, advance_boundary cfg hEs, ← eu_add_one hEu]
  exact ⟨rfl, rfl, rfl⟩

/-- The counters and the phase of a live voice after any other tick. -/
theorem voiceStep_within_unit (h : v.phase ≠ .done) (hEs : v.es + 1 < cfg.timeUnit) :
    (voiceStep cfg v).voice.es = v.es + 1 ∧ (voiceStep cfg v).voice.eu = v.eu ∧
      (voiceStep cfg v).voice.phase = v.phase := by
  rw [voiceStep_voice_of_live h, advance_es_of_ne cfg hEs]
  exact ⟨rfl, rfl, rfl⟩

theorem oscTick_of_pause (h : v.freq = 0) : oscTick cfg v = (v.osc, none) := if_pos h

theorem oscTick_of_freq (h : v.freq ≠ 0) :
    oscTick cfg v = ((cfg.oscStep v.osc).1, some (cfg.oscStep v.osc).2) := if_neg h

theorem oscTick_osc (cfg : Cfg Osc) (v : Voice Osc) :
    (oscTick cfg v).1 = if v.freq = 0 then v.osc else (cfg.oscStep v.osc).1 := apply_ite Prod.fst ..

theorem rawValue_oscTick (cfg : Cfg Osc) (v : Voice Osc) :
    rawValue (oscTick cfg v).2 = if v.freq = 0 then 0 else (cfg.oscStep v.osc).2.toInt := by
  by_cases h : v.freq = 0
  · rw [oscTick_of_pause h, if_pos h, rawValue]
  · rw [oscTick_of_freq h, if_neg h, rawValue]

@[simp] theorem contribution_zero_raw (vol g : Nat) : contribution 0 vol g = 0 := by simp [contribution_eq]

@[simp] theorem contribution_zero_vol (raw : Int) (g : Nat) : contribution raw 0 g = 0 := by simp [contribution_eq]

/-- Settles O22: the oscillator answers the raw sample, and a tick within a unit or at its end moves the counters. -/
theorem voiceStepFollowsItsRule : Obligations.VoiceStepFollowsItsRule := by
  intro Osc cfg v _ hInv
  refine ⟨fun hDone => by simp [voiceStep_of_done cfg hDone], fun hLive => ?_⟩
  obtain ⟨hEu, -⟩ := hInv.live hLive
  obtain ⟨hFreq, hVol, hDur, hRel⟩ := voiceStep_frame cfg v
  refine ⟨?contrib, hFreq, hVol, hDur, hRel, ?osc, voiceStep_of_boundary hLive hEu, fun hEs => ?within,
    voiceStep_done_iff cfg v⟩
  case contrib =>
    rw [voiceStep_contrib_of_live hLive, voiceContrib, contribution_eq, rawValue_oscTick]
    rfl
  case osc => rw [voiceStep_voice_of_live hLive, oscTick_osc]
  case within =>
    have hLt := hInv.es_lt
    exact voiceStep_within_unit hLive (by omega)

/-- Settles O23: the counters and the phase do not depend on the frequency, and a raw sample or a volume of 0
contributes 0. -/
theorem pauseAdvancesSilently : Obligations.PauseAdvancesSilently := by
  intro Osc cfg v f hLive
  refine ⟨fun hPause => ?_, fun hFreq hVol => ⟨?_, ?_⟩⟩
  · have hContrib : voiceContrib cfg v = 0 := by
      rw [voiceContrib, oscTick_of_pause hPause]
      exact contribution_zero_raw ..
    have hVoice : (voiceStep cfg { v with freq := f }).voice =
        { advance cfg v with freq := f, osc := (oscTick cfg { v with freq := f }).1 } := by
      rw [voiceStep_of_live cfg (v := { v with freq := f }) hLive]
      exact advance_withFreqOsc cfg v f _
    simp [voiceStep_done, Voice.isDone, voiceStep_contrib_of_live hLive, hContrib, voiceStep_voice_of_live hLive,
      voiceStep_raw_of_live hLive, hVoice, oscTick_of_pause hPause]
  · rw [voiceStep_contrib_of_live hLive, voiceContrib, hVol]
    exact contribution_zero_vol ..
  · rw [voiceStep_voice_of_live hLive, oscTick_of_freq hFreq]

/-- Settles O26: within a unit the phase stays, and the next unit's phase is no earlier one. -/
theorem voiceStepNeverGoesBack : Obligations.VoiceStepNeverGoesBack := by
  intro Osc cfg v _ hInv
  by_cases hDone : v.phase = .done
  · rw [voiceStep_of_done cfg hDone]
  · obtain ⟨hEu, hPhase⟩ := hInv.live hDone
    by_cases hEs : v.es + 1 < cfg.timeUnit
    · rw [(voiceStep_within_unit hDone hEs).2.2]
    · have hLt := hInv.es_lt
      obtain ⟨-, -, hNext⟩ := voiceStep_of_boundary (cfg := cfg) hDone hEu (by omega)
      rw [hNext, hPhase]
      exact phaseAt_code_mono cfg _ _ (Nat.le_succ _)

end Sys2Proof.Machine
end

section
/-! The reference gain (R103), its range and its fall in RELEASE, and the range of a contribution (R106). -/

namespace Sys2Proof.Machine

variable {A D S u rel dur : Nat}

theorem envGainRef_of_ended (h : dur ≤ u) : envGainRef A D S u rel dur = 0 := if_pos h

theorem envGainRef_of_release (hu : u < dur) (h : rel ≤ u) :
    envGainRef A D S u rel dur = gainAtRelease A D S rel * (dur - u) / (dur - rel + 1) := by
  rw [envGainRef, if_neg (Nat.not_le.2 hu), if_pos h]

theorem envGainRef_of_held (hu : u < dur) (h : u < rel) : envGainRef A D S u rel dur = gainPre A D S u := by
  rw [envGainRef, if_neg (Nat.not_le.2 hu), if_neg (Nat.not_le.2 h)]

theorem gainPre_of_attack (h : u < A) : gainPre A D S u = 256 * (u + 1) / A := if_pos h

theorem gainPre_of_decay (hA : A ≤ u) (hD : u < A + D) :
    gainPre A D S u = 256 - (256 - S) * (u - A + 1) / D := by
  rw [gainPre, if_neg (Nat.not_lt.2 hA), if_pos hD, gainOne]

theorem gainPre_of_sustain (h : A + D ≤ u) : gainPre A D S u = S := by
  rw [gainPre, if_neg (by omega), if_neg (by omega)]

/-- The last attack unit is at full level. -/
theorem gainPre_last_attack (h : u + 1 = A) : gainPre A D S u = 256 := by
  rw [gainPre_of_attack (by omega), h, Nat.mul_div_cancel _ (by omega)]

/-- The last decay unit is at the sustain level. -/
theorem gainPre_last_decay (hS : S ≤ 256) (hD : 1 ≤ D) (h : u + 1 = A + D) : gainPre A D S u = S := by
  rw [gainPre_of_decay (by omega) (by omega), (by omega : u - A + 1 = D), Nat.mul_div_cancel _ hD,
    Nat.sub_sub_self hS]

/-- Settles O28: a level of at most full is scaled by a factor of at most 1. -/
theorem referenceGainInRange : Obligations.ReferenceGainInRange := fun A D _ u rel dur hS =>
  ⟨envGainRef_le_gainOne hS A D u rel dur, envGainRef_of_ended⟩

/-- Settles O29: before release the gain is `Gpre`, whose three pieces meet at their end points. -/
theorem referenceGainFollowsItsRule : Obligations.ReferenceGainFollowsItsRule := fun _ _ _ _ _ _ hS hu =>
  ⟨fun hRel hA => (envGainRef_of_held hu hRel).trans (gainPre_of_attack hA),
    fun hRel hA hD => (envGainRef_of_held hu hRel).trans (gainPre_of_decay hA hD),
    fun hRel h => (envGainRef_of_held hu hRel).trans (gainPre_of_sustain h),
    envGainRef_of_release hu,
    fun hRel h => (envGainRef_of_held hu hRel).trans (gainPre_last_attack h),
    fun hRel hD h => (envGainRef_of_held hu hRel).trans (gainPre_last_decay hS hD h)⟩

/-- From the release point on the level is scaled by what is left of the duration. -/
theorem envGainRef_antitone_of_release {u' : Nat} (hRel : rel ≤ u) (h : u ≤ u') :
    envGainRef A D S u' rel dur ≤ envGainRef A D S u rel dur := by
  by_cases hu' : u' < dur
  · rw [envGainRef_of_release hu' (hRel.trans h), envGainRef_of_release (by omega) hRel]
    exact Nat.div_le_div_right (Nat.mul_le_mul_left _ (by omega))
  · rw [envGainRef_of_ended (Nat.le_of_not_lt hu')]
    exact Nat.zero_le _

/-- The first release unit scales the level of the unit before it by a factor below 1. -/
theorem envGainRef_release_le (hRel : 1 ≤ rel) (hDur : rel < dur) :
    envGainRef A D S rel rel dur ≤ envGainRef A D S (rel - 1) rel dur := by
  rw [envGainRef_of_release hDur (Nat.le_refl rel), envGainRef_of_held (u := rel - 1) (by omega) (by omega),
    gainAtRelease, if_pos hRel]
  exact Nat.div_le_of_le_mul (Nat.mul_comm _ (dur - rel + 1) ▸ Nat.mul_le_mul_left _ (Nat.le_succ _))

/-- Settles O30: both clauses compare the same level under two scales. -/
theorem releaseGainFalls : Obligations.ReleaseGainFalls := fun _ _ _ _ _ _ _ =>
  ⟨envGainRef_antitone_of_release, envGainRef_release_le⟩

/-- Settles O31: the scale `vol * g / 2^15` is between 0 and 1. -/
theorem contributionFitsSample : Obligations.ContributionFitsSample :=
  ⟨fun _ _ _ h1 h2 hvol hg =>
    ⟨contribution_of_nonneg hvol hg, fun h => contribution_of_nonpos hvol hg (Int.le_of_lt h),
      contribution_fits hvol hg h1 h2⟩,
    by decide, by decide⟩

end Sys2Proof.Machine
end

section
/-! The lifetime of a loaded voice (R110), by induction on its ticks. -/

namespace Sys2Proof.Machine

variable {Osc : Type} {cfg : Cfg Osc} {vol durm1 rel : BitVec 8}

/-- Where a note stands `n` ticks after its LOAD: its frame, and the counters and the phase of that tick (R110). -/
structure NoteAt (cfg : Cfg Osc) (vol durm1 rel : BitVec 8) (n : Nat) (v : Voice Osc) : Prop where
  vol_eq : v.vol = vol
  durm1_eq : v.durm1 = durm1
  rel_eq : v.rel = rel
  eu_eq : v.eu.toNat = n / cfg.timeUnit
  es_eq : v.es = n % cfg.timeUnit
  phase_eq : v.phase = phaseAt cfg (n / cfg.timeUnit) rel.toNat (durOf durm1)

variable {n : Nat} {v : Voice Osc}

theorem noteAt_loadVoice (freq : Freq) (old : Voice Osc) :
    NoteAt cfg vol durm1 rel 0 (loadVoice cfg freq vol durm1 rel old) where
  vol_eq := rfl
  durm1_eq := rfl
  rel_eq := rfl
  eu_eq := (Nat.zero_div _).symm
  es_eq := (Nat.zero_mod _).symm
  phase_eq := by rw [Nat.zero_div]; rfl

theorem NoteAt.dur_eq (h : NoteAt cfg vol durm1 rel n v) : v.dur = durOf durm1 := congrArg durOf h.durm1_eq

theorem NoteAt.consumed (h : NoteAt cfg vol durm1 rel n v) : v.consumed cfg = n := by
  rw [Voice.consumed, h.eu_eq, h.es_eq, Nat.div_add_mod']

theorem NoteAt.remain (h : NoteAt cfg vol durm1 rel n v) : v.remain = durOf durm1 - n / cfg.timeUnit := by
  rw [Voice.remain, h.dur_eq, h.eu_eq]

/-- A note is DONE from tick `dur * TIME_UNIT` on. -/
theorem NoteAt.done_iff (h : NoteAt cfg vol durm1 rel n v) (hT : 1 ≤ cfg.timeUnit) :
    v.phase = .done ↔ durOf durm1 * cfg.timeUnit ≤ n := by
  rw [h.phase_eq, phaseAt_eq_done, Nat.le_div_iff_mul_le hT]

/-- A note that still has budget is in RELEASE from tick `rel * TIME_UNIT` on. -/
theorem NoteAt.release_iff (h : NoteAt cfg vol durm1 rel n v) (hT : 1 ≤ cfg.timeUnit)
    (hn : n < durOf durm1 * cfg.timeUnit) : v.phase = .release ↔ rel.toNat * cfg.timeUnit ≤ n := by
  rw [h.phase_eq, phaseAt_eq_release, Nat.le_div_iff_mul_le hT, and_iff_right ((Nat.div_lt_iff_lt_mul hT).2 hn)]

/-- A tick that completes a unit adds one to the quotient, any other to the remainder. -/
theorem NoteAt.voiceStep (h : NoteAt cfg vol durm1 rel n v) (hT : 1 ≤ cfg.timeUnit)
    (hn : n < durOf durm1 * cfg.timeUnit) : NoteAt cfg vol durm1 rel (n + 1) (voiceStep cfg v).voice := by
  obtain ⟨-, hVol, hDur, hRel⟩ := voiceStep_frame cfg v
  have hLive : v.phase ≠ .done := by rw [ne_eq, h.done_iff hT]; omega
  suffices hCounters : (Machine.voiceStep cfg v).voice.eu.toNat = (n + 1) / cfg.timeUnit ∧
      (Machine.voiceStep cfg v).voice.es = (n + 1) % cfg.timeUnit ∧
      (Machine.voiceStep cfg v).voice.phase = phaseAt cfg ((n + 1) / cfg.timeUnit) rel.toNat (durOf durm1) by
    obtain ⟨hEu, hEs, hPhase⟩ := hCounters
    exact ⟨hVol.trans h.vol_eq, hDur.trans h.durm1_eq, hRel.trans h.rel_eq, hEu, hEs, hPhase⟩
  have hLt : n % cfg.timeUnit < cfg.timeUnit := Nat.mod_lt n hT
  have hSplit : n % cfg.timeUnit + cfg.timeUnit * (n / cfg.timeUnit) = n := Nat.mod_add_div ..
  by_cases hEs : n % cfg.timeUnit + 1 < cfg.timeUnit
  · obtain ⟨hEs', hEu', hPhase'⟩ := voiceStep_within_unit (cfg := cfg) hLive (h.es_eq ▸ hEs)
    obtain ⟨hDiv, hMod⟩ :
        (n + 1) / cfg.timeUnit = n / cfg.timeUnit ∧ (n + 1) % cfg.timeUnit = n % cfg.timeUnit + 1 :=
      (Nat.div_mod_unique hT).2 ⟨by omega, hEs⟩
    rw [hEs', hEu', hPhase', hDiv, hMod]
    exact ⟨h.eu_eq, by rw [h.es_eq], h.phase_eq⟩
  · have hLast : v.es = cfg.timeUnit - 1 := by rw [h.es_eq]; omega
    have hBudget : v.eu.toNat < v.dur := by
      rw [h.eu_eq, h.dur_eq]
      exact (Nat.div_lt_iff_lt_mul hT).2 hn
    obtain ⟨hEs', hEu', hPhase'⟩ := voiceStep_of_boundary hLive hBudget hLast
    obtain ⟨hDiv, hMod⟩ : (n + 1) / cfg.timeUnit = n / cfg.timeUnit + 1 ∧ (n + 1) % cfg.timeUnit = 0 :=
      (Nat.div_mod_unique hT).2 ⟨by rw [Nat.mul_succ]; omega, hT⟩
    rw [hEs', hEu', hPhase', hDiv, hMod, h.eu_eq, h.rel_eq, h.dur_eq]
    exact ⟨rfl, rfl, rfl⟩

theorem noteAt_voiceTicks (hT : 1 ≤ cfg.timeUnit) (freq : Freq) (old : Voice Osc)
    (hn : n ≤ durOf durm1 * cfg.timeUnit) :
    NoteAt cfg vol durm1 rel n (voiceTicks cfg n (loadVoice cfg freq vol durm1 rel old)) := by
  induction n with
  | zero => exact noteAt_loadVoice freq old
  | succ n ih => exact (ih (Nat.le_of_succ_le hn)).voiceStep hT hn

/-- A live voice contributes its raw sample at the volume of its frame and the gain of its unit. -/
theorem NoteAt.contrib (h : NoteAt cfg vol durm1 rel n v) (hLive : v.phase ≠ .done) :
    (Machine.voiceStep cfg v).contrib = contribution (rawValue (Machine.voiceStep cfg v).raw) vol.toNat
      (cfg.envGain (n / cfg.timeUnit) rel.toNat (durOf durm1)) := by
  rw [voiceStep_contrib_of_live hLive, voiceStep_raw_of_live hLive, voiceContrib, h.vol_eq, h.eu_eq, h.rel_eq, h.dur_eq]

/-- Settles O24: tick `t` steps the note that stands at `t - 1` and leaves it at `t`. -/
theorem loadedVoiceLifetime : Obligations.LoadedVoiceLifetime := by
  intro Osc cfg freq vol durm1 rel old t hValid ht hEnd before after
  have hT := hValid.timeUnit_pos
  change t ≤ durOf durm1 * cfg.timeUnit at hEnd
  have hLt : t - 1 < durOf durm1 * cfg.timeUnit := by omega
  have hBefore : NoteAt cfg vol durm1 rel (t - 1) before := noteAt_voiceTicks hT freq old (Nat.le_of_lt hLt)
  have hAfter : NoteAt cfg vol durm1 rel t after := noteAt_voiceTicks hT freq old hEnd
  have hStep : (voiceStep cfg before).voice = after := by
    obtain ⟨n, rfl⟩ : ∃ n, t = n + 1 := ⟨t - 1, by omega⟩
    rfl
  have hLive : before.phase ≠ .done := by rw [ne_eq, hBefore.done_iff hT]; omega
  refine ⟨hBefore.eu_eq, hBefore.es_eq, hBefore.phase_eq, hBefore.consumed, hBefore.remain, hBefore.contrib hLive,
    hAfter.eu_eq, hAfter.es_eq, ?done, fun _ => ?release⟩
  case done =>
    rw [voiceStep_done_iff, hStep, hAfter.done_iff hT]
    exact ⟨Nat.le_antisymm hEnd, Nat.le_of_eq ∘ Eq.symm⟩
  case release =>
    rw [hBefore.release_iff hT hLt]
    omega

end Sys2Proof.Machine
end

section
/-! The transitions of the phase register (R114). -/

namespace Sys2Proof.Machine

variable {Osc : Type} {cfg : Cfg Osc}

/-- A tick moves the phase of a live voice at a unit boundary only, by the rows of the table (R114). -/
theorem voiceStep_phase {v : Voice Osc} (h : VoiceInv cfg v) :
    (voiceStep cfg v).voice.phase =
      if v.phase = .done ∨ v.es ≠ cfg.timeUnit - 1 then v.phase
      else if v.dur ≤ v.eu.toNat + 1 then .done
      else if v.rel.toNat ≤ v.eu.toNat + 1 then .release
      else if v.phase = .attack ∧ v.eu.toNat + 1 < cfg.attackUnits then .attack
      else if (v.phase = .attack ∨ v.phase = .decay) ∧
        v.eu.toNat + 1 < cfg.attackUnits + cfg.decayUnits then .decay
      else .sustain := by
  by_cases hDone : v.phase = .done
  · rw [if_pos (.inl hDone), voiceStep_of_done cfg hDone]
  · obtain ⟨hEu, hPhase⟩ := h.live hDone
    by_cases hEs : v.es = cfg.timeUnit - 1
    · obtain ⟨-, -, hNext⟩ := voiceStep_of_boundary hDone hEu hEs
      rw [if_neg (by simp [hDone, hEs]), hNext, phaseAt_succ, ← hPhase]
    · have hLt := h.es_lt
      rw [if_pos (.inr hEs), (voiceStep_within_unit hDone (by omega)).2.2]

/-- `rst` is taken before anything else the host presents (R166). -/
theorem step_of_rst (s : State) (op : Option OpWord) (tick : Bool) (rest : List Requests) :
    step (s.withRequests ({ rst := true, op := op, tick := tick } :: rest)) =
      .next (resetEvent evm (s.withRequests rest)) := rfl

theorem resetEvent_voice? (s : State.Of Osc) (j : Nat) :
    (resetEvent cfg s).voice? j = (s.voice? j).map fun _ => Voice.atReset cfg.oscReset := List.getElem?_map ..

/-- Settles O27: LOAD writes the record of its own voice, ENABLE and DISABLE none, a TICK steps the enabled ones. -/
theorem phaseTransitionTable : Obligations.PhaseTransitionTable := by
  refine ⟨fun i s t j v v' hInv h hv hv' => ?_, fun s t j v' op tick rest h hv' => ?_⟩
  · obtain rfl := eq_resultOn_of_exec h
    cases i with
    | load k freq vol durm1 rel =>
      rw [resultOn, loaded_voice?, hv] at hv'
      by_cases hk : k.toNat = j
      · rw [if_pos hk] at hv'
        cases hv'
        exact (phaseAt_zero rel durm1).trans (if_neg (not_not.2 hk)).symm
      · rw [if_neg hk] at hv'
        cases hv'
        exact (if_pos hk).symm
    | enable k =>
      cases hv.symm.trans hv'
      rfl
    | disable k =>
      cases hv.symm.trans hv'
      rfl
    | tick =>
      rw [resultOn, ticked_voice?, hv] at hv'
      cases hBit : s.enabled j with
      | false =>
        rw [hBit] at hv'
        cases hv'
        exact (if_pos (.inl rfl)).symm
      | true =>
        rw [hBit] at hv'
        cases hv'
        simpa [hBit] using voiceStep_phase (hInv.voice? hv)
  · rw [step_of_rst] at h
    cases h
    rw [resetEvent_voice?] at hv'
    obtain ⟨-, -, rfl⟩ := Option.map_eq_some_iff.1 hv'
    rfl

end Sys2Proof.Machine
end

section
/-! Voices that take no step: DONE (R109) and disabled (R111). -/

namespace Sys2Proof.Machine

/-- Settles O39: its step answers `(0, true)` and its own record. -/
theorem enabledDoneVoiceRetiresSilently : Obligations.EnabledDoneVoiceRetiresSilently := by
  intro s i v hv hDone hBit
  have hStep := voiceStep_of_done evm hDone
  refine ⟨hStep, ?_, ticked evm s, rfl, ?_, ?_⟩
  · simp [contribIn, hv, hBit, hStep]
  · simp [ticked_voice?, hv, hBit, hStep]
  · simp [ticked_enabled, retires, hv, hBit, hStep]

theorem execAll_cons {s t : State} {i : Instr} (h : exec i s = .next t) (is : List Instr) :
    execAll (i :: is) s = execAll is t := by
  simp only [execAll, h]

/-- TICKs leave a disabled voice disabled and its registers as they are, however many there are (R111). -/
theorem execAll_ticks_of_disabled (n : Nat) {s : State} {j : Nat} (hBit : s.enabled j = false) :
    ∃ t, execAll (List.replicate n .tick) s = .next t ∧ t.nv = s.nv ∧ t.voice? j = s.voice? j ∧
      t.enabled j = false := by
  induction n generalizing s with
  | zero => exact ⟨s, rfl, rfl, rfl, hBit⟩
  | succ n ih =>
    have hBit' : (ticked evm s).enabled j = false := by rw [ticked_enabled, hBit, Bool.false_and]
    have hVoice : (ticked evm s).voice? j = s.voice? j := by
      rw [ticked_voice?, hBit, if_neg Bool.false_ne_true]
    obtain ⟨t, ht, hnv, hVoice', hOff⟩ := ih hBit'
    rw [List.replicate_succ, execAll_cons (exec_of_wellFormed (i := .tick) rfl)]
    exact ⟨t, ht, hnv.trans (ticked_nv evm s), hVoice'.trans hVoice, hOff⟩

/-- Settles O40: DISABLE clears the bit, the TICKs pass the voice by, ENABLE sets the bit again. -/
theorem disabledVoiceStandsStill : Obligations.DisabledVoiceStandsStill := by
  intro s v n hv
  have hDisable : exec (.disable v) s = .next (resultOn evm s (.disable v)) :=
    exec_of_wellFormed (decide_eq_true hv)
  have hBit : (resultOn evm s (.disable v)).enabled v.toNat = false := by
    simp [resultOn, State.Of.clearMask_enabled]
  obtain ⟨t, ht, hnv, hVoice, hOff⟩ := execAll_ticks_of_disabled n hBit
  have hEnable : exec (.enable v) t = .next (resultOn evm t (.enable v)) :=
    exec_of_wellFormed (decide_eq_true (hnv ▸ hv))
  refine ⟨t, _, (execAll_cons hDisable _).trans ht, hVoice, hOff, hEnable, hVoice, ?_⟩
  simp [resultOn, State.Of.setMask_enabled _ _ v.isLt]

end Sys2Proof.Machine
end

section
/-! ENABLE and DISABLE (R140, R141): their results, frames and refusals, and what a LOAD leaves of a DISABLE. -/

namespace Sys2Proof.Machine

variable {Osc : Type}

theorem exec_of_violation {s : State} {i : Instr} {r : Refusal} (h : violationOf s.nv i = some r) :
    exec i s = .refused r := by
  rw [exec_eq_execOn, execOn_eq, h]
  rfl

/-- Settles O17: the bit set is the one ENABLE addresses, and the voice check is the only one. -/
theorem enableResult : Obligations.EnableResult := by
  refine fun s v => ⟨fun hv => ?_, fun hv => exec_of_violation (if_neg (Nat.not_lt.2 hv))⟩
  have hBit : (s.setMask v.toNat).enabled v.toNat = true := by simp [State.Of.setMask_enabled _ _ v.isLt]
  exact ⟨_, exec_of_wellFormed (decide_eq_true hv), hBit,
    fun j hj => (resultOn_of_ne (i := .enable v) rfl hj.symm).2, rfl, rfl, rfl, rfl, rfl, rfl⟩

/-- Settles O18: the bit cleared is the one DISABLE addresses, and the voice check is the only one. -/
theorem disableResult : Obligations.DisableResult := by
  refine fun s v => ⟨fun hv => ?_, fun hv => exec_of_violation (if_neg (Nat.not_lt.2 hv))⟩
  have hBit : (s.clearMask v.toNat).enabled v.toNat = false := by simp [State.Of.clearMask_enabled]
  exact ⟨_, exec_of_wellFormed (decide_eq_true hv), hBit,
    fun j hj => (resultOn_of_ne (i := .disable v) rfl hj.symm).2, rfl, rfl, rfl, rfl, rfl, rfl⟩

theorem maskSet_maskClear (m : BitVec 16) {i : Nat} (hi : i < 16) : maskSet (maskClear m i) i = maskSet m i := by
  refine BitVec.eq_of_getLsbD_eq fun j _ => ?_
  rw [getLsbD_maskSet _ hi, getLsbD_maskSet _ hi, getLsbD_maskClear]
  by_cases hij : i = j <;> simp [hij]

/-- A LOAD sets the bit whatever it was, and does not read it (R112). -/
theorem loaded_clearMask (cfg : Cfg Osc) (v : VoiceIdx) (freq : Freq) (vol durm1 rel : BitVec 8) (s : State.Of Osc)
    (a : Activity) :
    loaded cfg v freq vol durm1 rel ((s.clearMask v.toNat).withActivity a) = loaded cfg v freq vol durm1 rel s := by
  simp only [loaded, State.Of.withActivity, State.Of.setMask, State.Of.updateVoice, State.Of.clearMask,
    maskSet_maskClear _ v.isLt]

theorem execAll_singleton (i : Instr) (s : State) : execAll [i] s = exec i s := by
  simp only [execAll]
  cases exec i s <;> rfl

/-- Settles O20: DISABLE keeps the number of voices, on which alone the refusals depend, and clears the bit LOAD sets. -/
theorem disableThenLoadIsLoad : Obligations.DisableThenLoadIsLoad := by
  intro s v freq vol durm1 rel hv
  have hDisable : exec (.disable v) s = .next (resultOn evm s (.disable v)) :=
    exec_of_wellFormed (decide_eq_true hv)
  have hLoaded : resultOn evm (resultOn evm s (.disable v)) (.load v freq vol durm1 rel) =
      resultOn evm s (.load v freq vol durm1 rel) := loaded_clearMask ..
  rw [execAll_cons hDisable, execAll_singleton, exec_eq_execOn, exec_eq_execOn, execOn_eq, execOn_eq, resultOn_nv,
    hLoaded]

end Sys2Proof.Machine
end

section
/-! TICK (R130 to R136): the sum, the stored sample and the clip count on every instance, and the order of the visits. -/

namespace Sys2Proof.Machine

variable {Osc : Type} (cfg : Cfg Osc) (s : State.Of Osc)

theorem descending_perm_range (n : Nat) : (descending n).Perm (List.range n) :=
  descending_eq_reverse_range n ▸ List.reverse_perm _

theorem pairwise_descending (n : Nat) : (descending n).Pairwise fun a b => b < a := by
  induction n with
  | zero => exact .nil
  | succ n ih => exact .cons (fun _ => mem_descending.1) ih

/-- The loop adds up every enabled voice's contribution (R132). -/
theorem mixed_acc : (mixed cfg s).acc = mixSum cfg s :=
  (mixAlong_mixStart_acc cfg s (nodup_descending _)).trans ((descending_perm_range s.nv).map _).sum_eq

theorem oscCallsIn_eq_getD (j : Nat) :
    oscCallsIn cfg s j = (((mixStart s).tickOf cfg j).map fun t => stepCall j t.raw).getD [] := by
  rw [mixStart_tickOf]
  unfold oscCallsIn
  cases s.voice? j <;> cases s.enabled j <;> rfl

/-- The calls on the capability port come in the order of the visits (R131). -/
theorem mixed_calls : (mixed cfg s).calls = (descending s.nv).flatMap (oscCallsIn cfg s) := by
  simp only [mixed, mixAlong_calls cfg (nodup_descending _), ← oscCallsIn_eq_getD]
  rfl

/-- Two orders of the same visits without repeats leave the same voices, mask and sum (R131). -/
theorem mixAlong_perm {l l' : List Nat} (h : l.Perm l') (hl : l.Nodup) (m : Mix Osc) :
    (mixAlong cfg l m).voices = (mixAlong cfg l' m).voices ∧ (mixAlong cfg l m).mask = (mixAlong cfg l' m).mask ∧
      (mixAlong cfg l m).acc = (mixAlong cfg l' m).acc := by
  have hl' := h.nodup_iff.1 hl
  refine ⟨List.ext_getElem? fun j => ?_, BitVec.eq_of_getLsbD_eq fun j _ => ?_, ?_⟩
  · simp only [mixAlong_voices cfg hl, mixAlong_voices cfg hl', h.mem_iff]
  · simp only [mixAlong_mask cfg hl, mixAlong_mask cfg hl', h.mem_iff]
  · rw [mixAlong_acc cfg hl, mixAlong_acc cfg hl', (h.map _).sum_eq]

/-- Settles O35: the voices, the mask and the sum after the visits depend on which voices are visited only. -/
theorem visitOrderFixedButImmaterial : Obligations.VisitOrderFixedButImmaterial := fun _ cfg s =>
  ⟨pairwise_descending _, fun _ => mem_descending, mixed_calls cfg s,
    fun _ h => mixAlong_perm cfg h (h.nodup_iff.2 (nodup_descending _)) (mixStart s)⟩

/-! ### The stored sample and the clip count in terms of the sum -/

theorem ticked_out_eq_mixSum : (ticked cfg s).out = BitVec.ofInt 8 (saturate (mixSum cfg s)) := by
  rw [ticked_out, mixed_acc]

theorem ticked_clipcnt_eq_mixSum : (ticked cfg s).clipcnt = countClip s.clipcnt (mixSum cfg s) := by
  rw [ticked_clipcnt, mixed_acc]

theorem ticked_out_toInt : (ticked cfg s).out.toInt = saturate (mixSum cfg s) := by
  rw [ticked_out_eq_mixSum, toInt_ofInt_saturate]

theorem countClip_eq_ite (c : BitVec 16) (x : Int) :
    countClip c x = if clamp x (-128) 127 ≠ x then c + 1 else c := by
  simp only [countClip, clipped, decide_eq_true_eq]
  rfl

/-- Settles O57: each field of the state a TICK leaves is the one its own lemma says. -/
theorem tickResultOnEveryInstance : Obligations.TickResultOnEveryInstance := by
  intro Osc cfg s
  refine ⟨ticked cfg s, rfl, fun j v hv => ?_, ticked_enabled cfg s, ticked_out_eq_mixSum cfg s,
    (ticked_clipcnt_eq_mixSum cfg s).trans (countClip_eq_ite ..), ticked_nv cfg s, rfl, rfl⟩
  rw [ticked_voice?, hv]
  cases s.enabled j <;> rfl

/-- Settles O32: the machine is the instance `evm`, and the calls come in the order of the visits. -/
theorem tickResult : Obligations.TickResult := by
  intro s
  obtain ⟨t, ht, hVoice, hBit, hOut, hClip, hnv, hRequests, hValid⟩ := tickResultOnEveryInstance _ evm s
  obtain rfl := eq_resultOn_of_execOn ht
  exact ⟨_, exec_of_wellFormed (i := .tick) rfl, hVoice, hBit, hOut, hClip, hnv, hRequests, hValid, mixed_calls evm s⟩

/-- Settles O33: the stored sample reads back as the saturated sum. -/
theorem saturationNeverWraps : Obligations.SaturationNeverWraps := by
  intro Osc cfg s
  refine ⟨rfl, ?_⟩
  rw [ticked_out_toInt]
  have := saturate_cases (mixSum cfg s)
  omega

/-- Settles O34: the count goes up by one, in sixteen bits, where the clamp changes the sum. -/
theorem clipCounterCountsClips : Obligations.ClipCounterCountsClips := by
  intro Osc cfg s
  rw [ticked_clipcnt_eq_mixSum]
  refine ⟨rfl, fun h => ?_, countClip_of_fit _⟩
  rw [countClip_of_clip _ h]
  exact BitVec.toNat_add ..

end Sys2Proof.Machine
end

section
/-! Voices that add nothing to a TICK, and voices that all add the same (R137 to R139). -/

namespace Sys2Proof.Machine

variable {Osc : Type} {cfg : Cfg Osc} {s : State.Of Osc}

theorem contribIn_of_disabled {j : Nat} (h : s.enabled j = false) : contribIn cfg s j = 0 := by
  rw [contribIn_eq_getD, mixStart_tickOf, h]
  rfl

/-- Only the enabled voices count for the sum (R132). -/
theorem mixSum_eq_sum_enabled :
    mixSum cfg s = (((List.range s.nv).filter s.enabled).map (contribIn cfg s)).sum := by
  unfold mixSum
  induction List.range s.nv with
  | nil => rfl
  | cons j l ih =>
    cases hBit : s.enabled j with
    | true => simp [hBit, ih]
    | false => simp [hBit, ih, contribIn_of_disabled hBit]

/-- Enabled voices that all contribute `c` add up to as many times `c`. -/
theorem mixSum_of_equal {c : Int} (h : ∀ j, j < s.nv → s.enabled j = true → contribIn cfg s j = c) :
    mixSum cfg s = ((List.range s.nv).filter s.enabled).length * c := by
  have hEach : ∀ x ∈ ((List.range s.nv).filter s.enabled).map (contribIn cfg s), x = c := by
    intro x hx
    obtain ⟨j, hj, rfl⟩ := List.mem_map.1 hx
    obtain ⟨hLt, hBit⟩ := List.mem_filter.1 hj
    exact h j (List.mem_range.1 hLt) hBit
  rw [mixSum_eq_sum_enabled, List.sum_eq_card_nsmul _ c hEach, List.length_map, nsmul_eq_mul]

/-- Settles O37: at least one full-scale contribution reaches the limit, and one alone does not pass it. -/
theorem fullScaleVoicesSaturate : Obligations.FullScaleVoicesSaturate := by
  intro Osc cfg s k c
  refine ⟨rfl, fun hCount hk hc hEach => ?_⟩
  have hSum : mixSum cfg s = k * c := hCount ▸ mixSum_of_equal hEach
  refine ⟨hSum, ?_, fun hOne => ?_⟩
  · rw [ticked_out_toInt, hSum]
    have := saturate_cases (k * c)
    obtain rfl | rfl := hc <;> omega
  · rw [ticked_clipcnt_eq_mixSum, hSum, hOne]
    exact countClip_of_fit _ (by omega) (by omega)

/-- Settles O38: the first TICK clears the bit, and the second passes a disabled voice by. -/
theorem retiredVoiceNoLongerSummed : Obligations.RetiredVoiceNoLongerSummed := by
  intro s i h
  have hBit : (ticked evm s).enabled i = false := by rw [ticked_enabled, h, Bool.not_true, Bool.and_false]
  refine ⟨ticked evm s, ticked evm (ticked evm s), rfl, rfl, hBit, contribIn_of_disabled hBit, ?_, ?_⟩
  · rw [ticked_voice?, hBit, if_neg Bool.false_ne_true]
  · rw [ticked_enabled, hBit, Bool.false_and]

/-- Visits change nothing where no voice is enabled (R130). -/
theorem mixAlong_of_mask_zero (l : List Nat) {m : Mix Osc} (h : m.mask = 0) : mixAlong cfg l m = m := by
  induction l with
  | nil => rfl
  | cons i l ih =>
    have hVisit : mixVoice cfg m i = m := if_neg (by simp [h])
    rw [mixAlong_cons, hVisit, ih]

/-- Settles O41: the loop ends as it starts, with nothing added up. -/
theorem tickWithEmptyMaskIsSilent : Obligations.TickWithEmptyMaskIsSilent := by
  intro s h
  have hTicked : ticked evm s = finishTick s (mixStart s) :=
    congrArg (finishTick s) (mixAlong_of_mask_zero (descending s.nv) (m := mixStart s) h)
  exact ⟨_, congrArg Host.Outcome.next hTicked, rfl, h, rfl, rfl, rfl⟩

/-- Settles O43: LOAD and ENABLE set one bit, DISABLE clears one, and a TICK clears those of the voices that retire. -/
theorem maskHasTwoKindsOfMutation : Obligations.MaskHasTwoKindsOfMutation := by
  refine ⟨fun s t op tick rest h => ?_, fun i s t j h => ?_⟩
  · rw [step_of_rst] at h
    cases h
    rfl
  · obtain rfl := eq_resultOn_of_exec h
    cases i with
    | load v freq vol durm1 rel =>
      rw [resultOn, loaded_enabled]
      exact ⟨fun hOff hOn => .inl ⟨v, freq, vol, durm1, rel, rfl, by simpa [hOff] using hOn⟩,
        fun hOn hOff => by simp [hOn] at hOff⟩
    | enable v =>
      rw [resultOn, State.Of.withActivity_enabled, State.Of.setMask_enabled _ _ v.isLt]
      exact ⟨fun hOff hOn => .inr ⟨v, rfl, by simpa [hOff] using hOn⟩, fun hOn hOff => by simp [hOn] at hOff⟩
    | disable v =>
      rw [resultOn, State.Of.withActivity_enabled, State.Of.clearMask_enabled]
      exact ⟨fun hOff hOn => by simp [hOff] at hOn, fun hOn hOff => .inl ⟨v, rfl, by simpa [hOn] using hOff⟩⟩
    | tick =>
      rw [resultOn, ticked_enabled]
      exact ⟨fun hOff hOn => by simp [hOff] at hOn, fun hOn hOff => .inr ⟨rfl, by simpa [hOn] using hOff⟩⟩

end Sys2Proof.Machine
end

section
/-! What a step takes off the ports, and when an operation is executed (R161, R162, R166, R176). -/

namespace Sys2Proof.Machine

/-- A step whose next event is an operation word runs that word on the state without it. -/
theorem step_of_nextEvent_op {s : State} {w : OpWord} {rest : List Requests}
    (h : nextEvent s.requests = (.op w, rest)) : step s = runWord w (s.withRequests rest) := by
  simp only [step, h]
  rfl

/-- A step whose next event is idle lets the strobes fall and holds the registers (R176). -/
theorem step_of_nextEvent_idle {s : State} {rest : List Requests} (h : nextEvent s.requests = (.idle, rest)) :
    step s = .next ((s.withRequests rest).withActivity .quiet) := by
  simp only [step, h]
  rfl

/-- A TICK neither reads nor writes the requests. -/
theorem ticked_withRequests {Osc : Type} (cfg : Cfg Osc) (s : State.Of Osc) (rs : List Requests) :
    ticked cfg (s.withRequests rs) = (ticked cfg s).withRequests rs := rfl

/-- A pending `tick_req` is a TICK of the state without it (R79). -/
theorem step_of_tickReq (s : State) (rest : List Requests) :
    step (s.withRequests ({ rst := false, op := none, tick := true } :: rest)) =
      .next (ticked evm (s.withRequests rest)) :=
  (tickRequestIsTickWord s rest).2

/-- A TICK word and `tick_req` of one instant are two TICKs, the word's first (R166). -/
theorem core_run_tickWord_tickReq (s : State) (rest : List Requests) :
    Sys2Proof.core.run 2 (s.withRequests ({ rst := false, op := some tickWord, tick := true } :: rest)) =
      execAll [.tick, .tick] (s.withRequests rest) := by
  have hWord : step (s.withRequests ({ rst := false, op := some tickWord, tick := true } :: rest)) =
      .next (ticked evm (s.withRequests ({ rst := false, op := none, tick := true } :: rest))) :=
    (step_of_nextEvent_op rfl).trans (runWord_of_ok (decodeWord_encode .tick) _)
  rw [core_run_of_step hWord, ticked_withRequests, core_run_of_step (step_of_tickReq _ rest), ← ticked_withRequests]
  rfl

/-- Settles O10: each clause is the next event of its instant, and the word of the last is the canonical TICK word. -/
theorem requestsTakenInFixedOrder : Obligations.RequestsTakenInFixedOrder := by
  intro s op w tick rest
  rw [← tickWord_eq]
  exact ⟨step_of_rst s op tick rest, step_of_nextEvent_op rfl, step_of_nextEvent_op rfl, step_of_nextEvent_op rfl,
    core_run_tickWord_tickReq s rest⟩

/-- Settles O13: with nothing presented the next event is idle. -/
theorem idleHoldsRegisters : Obligations.IdleHoldsRegisters := by
  intro s h
  have hEvent : nextEvent s.requests = (.idle, []) := by rw [h, nextEvent]
  exact ⟨_, step_of_nextEvent_idle hEvent, rfl, rfl, rfl, rfl, rfl, rfl⟩

/-- Settles O48: the checks of an operation find no violation exactly when it is well-formed. -/
theorem executedExactlyWhenLegal : Obligations.ExecutedExactlyWhenLegal := fun _ _ =>
  ⟨fun ⟨_, h⟩ => wellFormed_of_exec h, fun h => ⟨_, exec_of_wellFormed h⟩⟩

end Sys2Proof.Machine
end

section
/-! The values after reset (R190, R191, R193), and a LOAD right before a TICK (R201). -/

namespace Sys2Proof.Machine

variable {Osc : Type} {cfg : Cfg Osc}

theorem State.Of.afterReset_voice? {n j : Nat} (osc : Osc) (h : j < n) :
    (State.Of.afterReset n osc).voice? j = some (Voice.atReset osc) := by
  rw [State.Of.voice?, State.Of.afterReset_voices, List.getElem?_replicate, if_pos h]

/-- Settles O12: the sixteen voices are copies of one reset record. -/
theorem resetStateValues : Obligations.ResetStateValues :=
  ⟨State.Of.afterReset_nv .., rfl, rfl, rfl, fun _ => State.Of.afterReset_voice? _⟩

/-- Settles O11: `rst` is taken first, and every voice there is gets the reset record. -/
theorem resetEventClearsEverything : Obligations.ResetEventClearsEverything := by
  intro s op tick rest
  refine ⟨_, step_of_rst s op tick rest, resetEvent_nv .., fun i hi => ?_, rfl, rfl, rfl, rfl⟩
  obtain ⟨v, hv⟩ := State.Of.exists_voice? (resetEvent_nv .. ▸ hi)
  rw [resetEvent_voice?, hv]
  rfl

/-- A note just loaded contributes its oscillator's next sample at the volume of its frame and the gain of unit 0. -/
theorem voiceStep_contrib_loadVoice {freq : Freq} (hFreq : freq ≠ 0) (vol durm1 rel : BitVec 8) (old : Voice Osc) :
    (voiceStep cfg (loadVoice cfg freq vol durm1 rel old)).contrib =
      contribution (cfg.oscStep (cfg.oscLoad old.osc freq)).2.toInt vol.toNat
        (cfg.envGain 0 rel.toNat (durOf durm1)) := by
  have hLive : (loadVoice cfg freq vol durm1 rel old).phase ≠ .done :=
    fun hDone => Nat.not_succ_le_zero durm1.toNat (phaseAt_eq_done.1 hDone)
  rw [voiceStep_contrib_of_live hLive, voiceContrib, oscTick_of_freq hFreq]
  rfl

/-- What a voice contributes depends on its record and its bit only. -/
theorem contribIn_congr {s t : State.Of Osc} {j : Nat} (hVoice : t.voice? j = s.voice? j)
    (hBit : t.enabled j = s.enabled j) : contribIn cfg t j = contribIn cfg s j := by
  rw [contribIn, contribIn, hVoice, hBit]

/-- A sum over distinct indices with the term of one of them taken out. -/
theorem sum_map_eq_add_sum_others {l : List Nat} (hl : l.Nodup) {a : Nat} (ha : a ∈ l) {f g : Nat → Int}
    (h : ∀ j, j ≠ a → f j = g j) : (l.map f).sum = f a + (l.map fun j => if j = a then 0 else g j).sum := by
  have hOthers : (l.erase a).map f = (l.erase a).map fun j => if j = a then 0 else g j :=
    List.map_congr_left fun j hj => by
      have hj := (hl.mem_erase_iff.1 hj).1
      rw [h j hj, if_neg hj]
  rw [← List.sum_map_erase f ha, ← List.sum_map_erase _ ha, hOthers, if_pos rfl, Int.zero_add]

/-- Settles O42: LOAD sets the bit of the new note and leaves what every other voice contributes. -/
theorem newNoteHeardInNextTick : Obligations.NewNoteHeardInNextTick := by
  intro s v freq vol durm1 rel old hOld hVol hFreq
  have hv := State.Of.voice?_lt hOld
  refine ⟨loaded evm v freq vol durm1 rel s, (exec_eq_execOn ..).trans (execOn_load_of_legal hv hVol), ?contrib, ?sum⟩
  case contrib =>
    rw [contribIn, loaded_voice?_same hOld, loaded_enabled_same]
    exact voiceStep_contrib_loadVoice hFreq vol durm1 rel old
  case sum =>
    rw [mixSum, loaded_nv]
    refine sum_map_eq_add_sum_others List.nodup_range (List.mem_range.2 hv) fun j hj => ?_
    obtain ⟨hVoice, hBit⟩ := resultOn_of_ne (cfg := evm) (s := s) (i := .load v freq vol durm1 rel) rfl hj.symm
    exact contribIn_congr hVoice hBit

end Sys2Proof.Machine
end
